-- ==== Sys2Proof/Word.lean ====
section
/-! DEFINITION. The word types of the block: wire and raw bytes, nibbles, tags (00_scope.md section 5.1). -/

namespace Sys2Proof

/-- `u8`: a wire byte or a raw byte. -/
abbrev Byte := BitVec 8

/-- `u4`: the value one codeword carries; destination identifiers and identities have this width. -/
abbrev Nibble := BitVec 4

/-- `u16`: the optional correlation value of a message. -/
abbrev Tag := BitVec 16

end Sys2Proof
end

