-- ==== Sys2Proof/Config.lean ====
section
/-! DEFINITION. The three parameters of a receiver instance (00_scope.md R6 to R9; 10_state.md R16). -/

namespace Sys2Proof

/-- What is fixed when a receiver is built and is read-only afterwards (10_state.md R16). Each State holds one;
no step writes it. -/
structure Config where
  /-- `MAX_MESSAGE_SIZE` (R6): the largest payload a receiver delivers, tag excluded; 0 is legal. -/
  maxMessageSize : Nat
  /-- `MY_ID` (R7): the receiver's identity; 0 accepts every destination. -/
  myId : Nibble
  /-- `CRC_MISMATCH_START` (R8): whether a START byte that is not the awaited CRC restarts reconstruction (R79). -/
  crcMismatchStart : Bool
  deriving DecidableEq, Repr

/-- `BUF_CAP = MAX_MESSAGE_SIZE + 2` (R6): the number of bytes of the receive buffer. -/
def Config.bufCap (c : Config) : Nat := c.maxMessageSize + 2

/-- The value of `MAX_MESSAGE_SIZE` in the built instance: the spec gives none (R6; D2), so it has no body here.
DESIGN CHOICE, safe (log entry 1). -/
opaque Config.anyMaxMessageSize : Nat

/-- The value of `MY_ID` in the built instance: the spec gives none (R7; D3), so it has no body here.
DESIGN CHOICE, safe (log entry 1). -/
opaque Config.anyMyId : Nibble

/-- The byte that cell `i` of a receive buffer holds before anything is written there: the spec allows any value
(10_state.md R22; 93_implementation_defined.md U4), so it has no body here. DESIGN CHOICE, safe (log entry 4). -/
opaque Config.anyBufByte : Nat → Byte

/-- The parameters of the instance that State.reset stands for: nothing is known of the first two, the third has the
spec's default (R8). DESIGN CHOICE (log entries 1 and 2). -/
def Config.built : Config :=
  { maxMessageSize := Config.anyMaxMessageSize, myId := Config.anyMyId, crcMismatchStart := true }

end Sys2Proof
end

