-- ==== Sys2Proof/Machine/Codec.lean ====
section
/-! DEFINITION. The frame codec (40_codec.md): constants, CRC-8 generator, nibble encoder and decoder. Pure and total
(R52). -/

namespace Sys2Proof

/-- `START` (00_scope.md R5; 30_encoding.md R35). The literals of this file are not audited: UNVERIFIED, log entry 12. -/
def START : Byte := 0x0C
/-- `END`: end of an untagged frame (R5, R35). -/
def END : Byte := 0x03
/-- `END_TAG`: end of a tagged frame (R5, R35). -/
def END_TAG : Byte := 0x06
/-- `NIBBLE_MASK` (R5): XORed with a nibble to form its check nibble. -/
def NIBBLE_MASK : Nibble := 0xF
/-- `CRC_INIT` (R5): the seed of a fresh CRC computation. -/
def CRC_INIT : Byte := 0x00
/-- `CRC_FEEDBACK` (R5): the reflected feedback constant. -/
def CRC_FEEDBACK : Byte := 0x8C
/-- `BROADCAST` (R5): the destination every receiver accepts. -/
def BROADCAST : Nibble := 0

namespace Codec

/-- `w[7:4]`. -/
def highNibble (w : Byte) : Nibble := w.extractLsb' 4 4

/-- `w[3:0]`. -/
def lowNibble (w : Byte) : Nibble := w.extractLsb' 0 4

/-- `zext_8(n)`. -/
def zext8 (n : Nibble) : Byte := n.setWidth 8

/-- `k` bit steps of the bit-serial CRC (R44): `mix = (c ^ x)[0]`, shift `c` right, feed back if `mix`, shift `x` right. -/
def crcBits : Nat → Byte → Byte → Byte
  | 0, c, _ => c
  | k + 1, c, x =>
    crcBits k (if (c ^^^ x).getLsbD 0 then (c >>> 1) ^^^ CRC_FEEDBACK else c >>> 1) (x >>> 1)

/-- One raw byte through the CRC register, least significant bit first (R44; 20_memory.md R25). -/
def crcByte (c x : Byte) : Byte := crcBits 8 c x

/-- `crc8(seed, bytes)` (R44), the bytes in sequence order. -/
def crc8 (seed : Byte) (bytes : List Byte) : Byte := bytes.foldl crcByte seed

/-- `enc_nibble(n) = (zext_8(n) << 4) | zext_8(n ^ 0xF)` (R47). -/
def encNibble (n : Nibble) : Byte := (zext8 n <<< 4) ||| zext8 (n ^^^ NIBBLE_MASK)

/-- `enc_byte(b)` (R48): the high nibble's codeword first. -/
def encByte (b : Byte) : List Byte := [encNibble (highNibble b), encNibble (lowNibble b)]

/-- `dec_check(w)` (R49): the nibble of a codeword, `none` for any other byte. -/
def decCheck (w : Byte) : Option Nibble :=
  if highNibble w = lowNibble w ^^^ NIBBLE_MASK then some (highNibble w) else none

/-- `h*16 + l` (30_encoding.md R37 b). -/
def joinNibbles (h l : Nibble) : Byte := (zext8 h <<< 4) + zext8 l

/-- `dec_byte(w_hi, w_lo)` (R50). -/
def decByte (wHi wLo : Byte) : Option Byte :=
  match decCheck wHi, decCheck wLo with
  | some h, some l => some (joinNibbles h l)
  | _, _ => none

/-- The tag `b_hi*256 + b_lo` (30_encoding.md R37 c). -/
def joinTag (hi lo : Byte) : Tag := hi ++ lo

/-- `v[15:8]`. -/
def tagHigh (v : Tag) : Byte := v.extractLsb' 8 8

/-- `v[7:0]`. -/
def tagLow (v : Tag) : Byte := v.extractLsb' 0 8

/-- `tagbytes` (30_encoding.md R32): nothing, or the tag's high byte then its low byte. -/
def tagBytes : Option Tag → List Byte
  | none => []
  | some v => [tagHigh v, tagLow v]

end Codec

end Sys2Proof
end

