-- ==== Sys2Proof/Syntax.lean ====
section
/-! DEFINITION. The instructions of the block: the classes of a wire byte, one constructor per row of
opcode_table.json (30_encoding.md R36). -/

namespace Sys2Proof

/-- One wire byte, by its class. The `DATA(n)` class has 16 rows and 16 constructors. -/
inductive Instr where
  /-- `START`, 0x0C (R35). -/
  | start
  /-- `END`, 0x03 (R35). -/
  | endFrame
  /-- `END_TAG`, 0x06 (R35). -/
  | endTag
  /-- `DATA_0`, the codeword of nibble 0x0 (R34). -/
  | data0
  /-- `DATA_1`, the codeword of nibble 0x1 (R34). -/
  | data1
  /-- `DATA_2`, the codeword of nibble 0x2 (R34). -/
  | data2
  /-- `DATA_3`, the codeword of nibble 0x3 (R34). -/
  | data3
  /-- `DATA_4`, the codeword of nibble 0x4 (R34). -/
  | data4
  /-- `DATA_5`, the codeword of nibble 0x5 (R34). -/
  | data5
  /-- `DATA_6`, the codeword of nibble 0x6 (R34). -/
  | data6
  /-- `DATA_7`, the codeword of nibble 0x7 (R34). -/
  | data7
  /-- `DATA_8`, the codeword of nibble 0x8 (R34). -/
  | data8
  /-- `DATA_9`, the codeword of nibble 0x9 (R34). -/
  | data9
  /-- `DATA_A`, the codeword of nibble 0xA (R34). -/
  | dataA
  /-- `DATA_B`, the codeword of nibble 0xB (R34). -/
  | dataB
  /-- `DATA_C`, the codeword of nibble 0xC (R34). -/
  | dataC
  /-- `DATA_D`, the codeword of nibble 0xD (R34). -/
  | dataD
  /-- `DATA_E`, the codeword of nibble 0xE (R34). -/
  | dataE
  /-- `DATA_F`, the codeword of nibble 0xF (R34). -/
  | dataF
  /-- `INVALID`: one of the 237 other byte values (R36, R39). The row fixes no bit, so the byte is kept: the two CRC
  positions compare it by value. DEDUCED, safe (log entry 11). -/
  | invalid (w : Byte)
  deriving DecidableEq, Repr

end Sys2Proof
end

