-- ==== Sys2Proof/WellFormed.lean ====
section
/-! DEFINITION. Which instruction terms stand for a wire byte (30_encoding.md R36). -/

namespace Sys2Proof

/-- The `INVALID` class holds exactly the bytes that are neither a control byte nor a codeword (R36). -/
def invalidByte (w : Byte) : Bool :=
  w != START && w != END && w != END_TAG && (Codec.decCheck w).isNone

/-- Only `invalid` carries data that could be wrong. -/
def Instr.wellFormed : Instr → Bool
  | .invalid w => invalidByte w
  | .start => true
  | .endFrame => true
  | .endTag => true
  | .data0 => true
  | .data1 => true
  | .data2 => true
  | .data3 => true
  | .data4 => true
  | .data5 => true
  | .data6 => true
  | .data7 => true
  | .data8 => true
  | .data9 => true
  | .dataA => true
  | .dataB => true
  | .dataC => true
  | .dataD => true
  | .dataE => true
  | .dataF => true

end Sys2Proof
end

