-- ==== Sys2Proof/Decode.lean ====
section
/-! DEFINITION. From wire bytes to instructions and back (30_encoding.md R34 to R36). -/

namespace Sys2Proof

/-- The constructor of the class `DATA(n)` (R36). -/
def dataInstr (n : Nibble) : Instr :=
  match n.toNat with
  | 0 => .data0
  | 1 => .data1
  | 2 => .data2
  | 3 => .data3
  | 4 => .data4
  | 5 => .data5
  | 6 => .data6
  | 7 => .data7
  | 8 => .data8
  | 9 => .data9
  | 10 => .dataA
  | 11 => .dataB
  | 12 => .dataC
  | 13 => .dataD
  | 14 => .dataE
  | _ => .dataF

/-- `classify(w)` (R36), total. -/
def classify (w : Byte) : Instr :=
  if w = START then .start
  else if w = END then .endFrame
  else if w = END_TAG then .endTag
  else match Codec.decCheck w with
    | some n => dataInstr n
    | none => .invalid w

/-- Why a list of bytes holds no instruction. -/
inductive DecodeError where
  /-- There is no byte. Every byte is an instruction (R36 is total), so this is the only reason. -/
  | noByte
  deriving DecidableEq, Repr

/-- The first instruction of a list of wire bytes, and the bytes after it. -/
def decode : List Byte → Except DecodeError (Instr × List Byte)
  | [] => .error .noByte
  | w :: rest => .ok (classify w, rest)

/-- The wire byte of an instruction, from the tables of R34 and R35. -/
def Instr.byte : Instr → Byte
  | .start => 0x0C
  | .endFrame => 0x03
  | .endTag => 0x06
  | .data0 => 0x0F
  | .data1 => 0x1E
  | .data2 => 0x2D
  | .data3 => 0x3C
  | .data4 => 0x4B
  | .data5 => 0x5A
  | .data6 => 0x69
  | .data7 => 0x78
  | .data8 => 0x87
  | .data9 => 0x96
  | .dataA => 0xA5
  | .dataB => 0xB4
  | .dataC => 0xC3
  | .dataD => 0xD2
  | .dataE => 0xE1
  | .dataF => 0xF0
  | .invalid w => w

/-- The words of an instruction: one wire byte. -/
def encode (i : Instr) : List Byte := [i.byte]

/-- The nibble of a `DATA(n)` instruction (R34). -/
def Instr.nibble? : Instr → Option Nibble
  | .start => none
  | .endFrame => none
  | .endTag => none
  | .data0 => some 0x0
  | .data1 => some 0x1
  | .data2 => some 0x2
  | .data3 => some 0x3
  | .data4 => some 0x4
  | .data5 => some 0x5
  | .data6 => some 0x6
  | .data7 => some 0x7
  | .data8 => some 0x8
  | .data9 => some 0x9
  | .dataA => some 0xA
  | .dataB => some 0xB
  | .dataC => some 0xC
  | .dataD => some 0xD
  | .dataE => some 0xE
  | .dataF => some 0xF
  | .invalid _ => none

/-- The one byte of an instruction word given as a number of `nbits` bits: bits above `nbits` are 0, and no
instruction is longer than a byte. -/
def fetchWordByte (nbits w : Nat) : Byte := BitVec.ofNat 8 (w % 2 ^ nbits)

/-- The instruction the decoder reads from a table word. -/
def decodeTableWord (nbits w : Nat) : Option Instr :=
  match decode [fetchWordByte nbits w] with
  | .ok (i, _) => some i
  | .error _ => none

end Sys2Proof
end

