-- ==== Sys2Proof/Machine/State.lean ====
section
/-! DEFINITION. The state of one receiver instance, with the record of its event interfaces (10_state.md). -/

namespace Sys2Proof.Machine

/-- The values of the frame-position register `st` (10_state.md R12). -/
inductive Position where
  | waitStart
  | waitDestinationId
  | waitByteHigh
  | waitByteLow
  | waitCrc
  | waitCrcWithTag
  deriving DecidableEq, Repr

/-- The labels of `raise Drop(reason)` (60_exceptions.md R96): names for the reader, neither stored nor output
(log entry 13). -/
inductive DropReason where
  | structural
  | notAddressed
  | crcMismatch
  | overflow
  | malformedTag
  | lengthExceeded
  deriving DecidableEq, Repr

/-- The event `msg(p, n, t)` (10_state.md R19). -/
structure Message where
  payload : List Byte
  length  : Nat
  tag     : Option Tag
  deriving DecidableEq, Repr

/-- The payload and length arguments of `send` (42_sender.md R87, R89): a byte sequence, or one of the two guarded
forms of a pointer with a signed length. DESIGN CHOICE, safe (log entry 10). -/
inductive PayloadArg where
  /-- A payload whose length is the number of its bytes. -/
  | bytes (p : List Byte)
  /-- A null pointer with a length that is not negative. -/
  | null (length : Nat)
  /-- Any pointer with the negative length `-(below + 1)`. -/
  | negative (below : Nat)
  deriving DecidableEq, Repr

/-- The arguments of one `send(d, p, t)` (42_sender.md R87; D12). -/
structure SendRequest where
  dest    : Int
  payload : PayloadArg
  tag     : Option Tag
  deriving DecidableEq, Repr

/-- What the environment does to the block (10_state.md R18, R20). -/
inductive Input where
  /-- `rx_byte(b)`. -/
  | rxByte (b : Byte)
  /-- The requester calls `send`. -/
  | send (r : SendRequest)
  deriving DecidableEq, Repr

/-- The receive buffer: the written cells, by rising index (20_memory.md R23). An index that is not listed was never
written; what State.readByte gives for it is a free value: DESIGN CHOICE, safe (log entry 4). -/
abbrev Memory := List Host.Cell

/-- Everything the spec gives one receiver instance, and the model's record of the events at its edge. -/
structure State where
  /-- The three parameters, never written (10_state.md R16). -/
  cfg       : Config
  /-- The frame-position register (R12). -/
  st        : Position
  /-- The decoded destination of the frame in progress (R13). -/
  dest      : Nibble
  /-- The count of complete raw bytes in `buf` (R14). -/
  len       : Nat
  /-- The receive buffer (20_memory.md R23); `buf[len]` is the pending byte slot (R15). -/
  buf       : Memory
  /-- The optional running CRC (R21): written as that rule says, read by no rule (log entry 5). -/
  crcRun    : Byte
  /-- The environment's events still to come, the next one first (log entry 6). -/
  input     : List Input
  /-- The `msg` events emitted so far, oldest first (R19; log entry 8). -/
  delivered : List Message
  /-- The bytes written to the byte sink so far, oldest first (R20; log entry 8). -/
  tx        : List Byte
  deriving DecidableEq, Repr

/-- Why a step can stop with a fault: for no reason. A model of this block has no fault outcome, and every state has a
successor under every input byte (60_exceptions.md R95), so the type is empty and nobody raises it. -/
inductive Fault where
  deriving DecidableEq, Repr

/-- Why an instruction is turned away. -/
inductive Refusal where
  /-- The instruction has no meaning in the model yet. Raised by no arm of exec: every row has its meaning. Safe. -/
  | notModelled (mnemonic : String)
  deriving DecidableEq, Repr

/-- A fresh instance with the parameters `c` (70_reset_and_hazards.md R113): `st = WaitStart`, no event yet. The spec
gives `dest`, `len`, `crc_run` and the bytes of `buf` no value; the first three are 0 here and no cell of `buf` is
written. DESIGN CHOICE (log entries 3, 4, 5). -/
def State.resetWith (c : Config) : State :=
  { cfg := c, st := .waitStart, dest := 0, len := 0, buf := [], crcRun := 0,
    input := [], delivered := [], tx := [] }

/-- The instance right after reset (10_state.md R22), its parameters as Config.built has them. -/
def State.reset : State := State.resetWith Config.built

end Sys2Proof.Machine
end

