-- ==== Sys2Proof/Machine/Ops.lean ====
section
/-! DEFINITION. The named operations over the receiver's registers, its buffer and its event interfaces. -/

namespace Sys2Proof.Machine

/-- What one step or one meaning answers. -/
abbrev Answer := Host.Outcome State Fault Refusal

/-! ### The buffer as data (20_memory.md R23) -/

/-- The value of the cell at `i`, if that index was ever written. -/
def Memory.read : Memory → Nat → Option Byte
  | [], _ => none
  | (a, v) :: m, i => if a = i then some v else Memory.read m i

/-- The buffer with `v` at index `i`, its cells still by rising index. -/
def Memory.write : Memory → Nat → Byte → Memory
  | [], i, v => [(i, v)]
  | (a, u) :: m, i, v =>
    if i < a then (i, v) :: (a, u) :: m
    else if a = i then (i, v) :: m
    else (a, u) :: Memory.write m i v

/-- The canonical form: indices strictly rising. An unlisted index has no value, so no entry repeats one. -/
def Memory.wf : Memory → Bool
  | [] => true
  | [_] => true
  | (a, _) :: (b, v) :: m => decide (a < b) && Memory.wf ((b, v) :: m)

/-! ### Register writes -/

/-- `st <- p` (00_scope.md section 5.3). -/
def State.goTo (p : Position) (s : State) : State := { s with st := p }

/-- `dest <- n; len <- 0` (41_receiver.md R59), with the running CRC seeded (10_state.md R21). -/
def State.beginFrame (n : Nibble) (s : State) : State :=
  { s with dest := n, len := 0, crcRun := Codec.crc8 CRC_INIT [Codec.zext8 n] }

/-- `len <- len + 1` for the completed byte `b` (41_receiver.md R70), with the running CRC advanced (10_state.md R21). -/
def State.countByte (b : Byte) (s : State) : State :=
  { s with len := s.len + 1, crcRun := Codec.crc8 s.crcRun [b] }

/-- `len <- k` (41_receiver.md R75). -/
def State.setLen (k : Nat) (s : State) : State := { s with len := k }

/-- `MemWrite(i, 1, v)` (20_memory.md R23), for `0 <= i < BUF_CAP`; there is no cell at another index to write. No run
from a fresh instance asks for one (R29). DEDUCED, safe (log entry 9). -/
def State.writeByte (i : Nat) (v : Byte) (s : State) : State :=
  { s with buf := if i < s.cfg.bufCap then Memory.write s.buf i v else s.buf }

/-! ### Events -/

/-- `emit msg(p, n, t)` (10_state.md R19). -/
def State.emit (m : Message) (s : State) : State := { s with delivered := s.delivered ++ [m] }

/-- `write(w)`: one byte to the byte sink (42_sender.md R87, R91). -/
def State.write (w : Byte) (s : State) : State := { s with tx := s.tx ++ [w] }

/-- The environment's next event and the state without it (10_state.md R18). -/
def State.takeInput (s : State) : Option (Input × State) :=
  match s.input with
  | [] => none
  | e :: rest => some (e, { s with input := rest })

/-- The state with one more event, ahead of the ones to come. -/
def State.pushInput (e : Input) (s : State) : State := { s with input := e :: s.input }

/-! ### Buffer accesses (20_memory.md R27) -/

/-- `MemRead(i, 1)`: the byte last written at `i`; a free value where nothing was written (10_state.md R22;
93_implementation_defined.md U4; log entry 4), and at an index outside `0 .. BUF_CAP-1`, which no run from a fresh
instance reads (R29; log entry 9). -/
def State.readByte (s : State) (i : Nat) : Byte :=
  if i < s.cfg.bufCap then (Memory.read s.buf i).getD (Config.anyBufByte i) else Config.anyBufByte i

/-- `buf[0..n)`, read in index order. -/
def State.readSpan (s : State) (n : Nat) : List Byte := (List.range n).map s.readByte

/-! ### The drop, the block's one reaction to an error, and the way back (60_exceptions.md R104, R105) -/

/-- `raise Drop(reason)` (R104): `st <- WaitStart` and nothing else; the reason is only a name (R96). -/
def State.drop (_reason : DropReason) (s : State) : Answer := .next (s.goTo .waitStart)

/-- A byte acting as a start byte: `st <- WaitDestinationId` (41_receiver.md R56, R58, R62, R69, R79). It is also the
one way back from a drop (R105). -/
def State.restart (s : State) : Answer := .next (s.goTo .waitDestinationId)

/-- A byte passed over in `WaitStart` (41_receiver.md R57): no change. -/
def State.discard (s : State) : Answer := .next s

/-- The reset operation a model may offer (70_reset_and_hazards.md R114): `st <- WaitStart`, all else as it is.
No event of the environment is bound to it (log entry 14). -/
def State.softReset (s : State) : State := s.goTo .waitStart

end Sys2Proof.Machine
end

