-- ==== Sys2Proof/Machine/Flags.lean ====
section
/-! DEFINITION. The tests of a step. The block keeps no flag: each outcome is used inside the step that makes it
(10_state.md R17). -/

namespace Sys2Proof.Machine

/-- The address filter (41_receiver.md R59): `MY_ID = 0 or n = 0 or n = MY_ID`. -/
def addressed (c : Config) (n : Nibble) : Bool := c.myId == 0 || n == BROADCAST || n == c.myId

/-- Room for a further byte: `len < BUF_CAP` (41_receiver.md R66, R67). -/
def State.hasRoom (s : State) : Bool := s.len < s.cfg.bufCap

/-- The tag framing test `len >= 2` (41_receiver.md R64, R65). -/
def State.hasTag (s : State) : Bool := 2 ≤ s.len

/-- The length test `len <= MAX_MESSAGE_SIZE` (41_receiver.md R72, R73). -/
def State.lengthOk (s : State) : Bool := s.len ≤ s.cfg.maxMessageSize

/-- Whether a byte that is not the awaited CRC restarts reconstruction (41_receiver.md R79). -/
def State.mismatchRestarts (b : Byte) (s : State) : Bool := b == START && s.cfg.crcMismatchStart

end Sys2Proof.Machine
end

