-- ==== Sys2Proof/Machine/Operands.lean ====
section
/-! DEFINITION. The operands of a step: the pending slot, the two halves of a byte, the computed CRC, the tag
(30_encoding.md R37; 10_state.md R15; 41_receiver.md R55). -/

namespace Sys2Proof.Machine

/-- The index of the pending byte slot, `len` (10_state.md R15): the only index a step stores to. -/
def State.pendingSlot (s : State) : Nat := s.len

/-- `n*16`, the pending byte after its high nibble (41_receiver.md R66). -/
def highHalf (n : Nibble) : Byte := Codec.zext8 n <<< 4

/-- `v + n`, the pending byte completed by its low nibble (41_receiver.md R70). -/
def addLow (v : Byte) (n : Nibble) : Byte := v + Codec.zext8 n

/-- `rx_crc()` (41_receiver.md R55): the CRC over the destination and the stored bytes. -/
def State.rxCrc (s : State) : Byte := Codec.crc8 (Codec.crc8 CRC_INIT [Codec.zext8 s.dest]) (s.readSpan s.len)

/-- The tag at `buf[k]`, `buf[k+1]`, high byte first (41_receiver.md R75; 20_memory.md R24 b). -/
def State.readTag (s : State) (k : Nat) : Tag := Codec.joinTag (s.readByte k) (s.readByte (k + 1))

end Sys2Proof.Machine
end

