-- ==== Sys2Proof/Machine/Receive.lean ====
section
/-! DEFINITION. The shared effects of the receive state machine (41_receiver.md), one operation per rule or pair of
rules; the meanings of the instructions call them. -/

namespace Sys2Proof.Machine

/-- `WaitDestinationId`, `DATA(n)`: accepted (R59) or not addressed to this receiver (R60). -/
def State.takeDestination (n : Nibble) (s : State) : Answer :=
  if addressed s.cfg n then .next ((s.beginFrame n).goTo .waitByteHigh) else s.drop .notAddressed

/-- `WaitByteHigh`, `END`: any length (R63). -/
def State.endUntagged (s : State) : Answer := .next (s.goTo .waitCrc)

/-- `WaitByteHigh`, `END_TAG`: with two stored bytes (R64) or fewer (R65). -/
def State.endTagged (s : State) : Answer :=
  if s.hasTag then .next (s.goTo .waitCrcWithTag) else s.drop .malformedTag

/-- `WaitByteHigh`, `DATA(n)`: `n*16` into the pending slot (R66), or the buffer is full (R67). -/
def State.storeHigh (n : Nibble) (s : State) : Answer :=
  if s.hasRoom then .next ((s.writeByte s.pendingSlot (highHalf n)).goTo .waitByteLow) else s.drop .overflow

/-- `WaitByteLow`, `DATA(n)`: the pending byte completed and counted (R70). The index is `len` before the increment. -/
def State.storeLow (n : Nibble) (s : State) : Answer :=
  let b := addLow (s.readByte s.pendingSlot) n
  .next (((s.writeByte s.pendingSlot b).countByte b).goTo .waitByteHigh)

/-- The pseudostate `MessageReceived` (R77): the untagged message, then `WaitStart`. -/
def State.deliver (s : State) : Answer :=
  .next ((s.emit ⟨s.readSpan s.len, s.len, none⟩).goTo .waitStart)

/-- R75 and the pseudostate `MessageReceivedWithTag` (R78): the last two bytes stripped as the tag, the message, then
`WaitStart`. `len >= 2` holds here in every run from a fresh instance (R80); the rule makes no test of it. -/
def State.deliverTagged (s : State) : Answer :=
  let k := s.len - 2
  .next (((s.setLen k).emit ⟨s.readSpan k, k, some (s.readTag k)⟩).goTo .waitStart)

/-- A byte that is not the awaited CRC: a start (R79) or a mismatch (R74, R76). -/
def State.crcMismatch (b : Byte) (s : State) : Answer :=
  if s.mismatchRestarts b then s.restart else s.drop .crcMismatch

/-- `WaitCrc`, any byte, by value (R53): R72 with R77, R73, R79, R74. -/
def State.takeCrc (b : Byte) (s : State) : Answer :=
  if b = s.rxCrc then
    if s.lengthOk then s.deliver else s.drop .lengthExceeded
  else s.crcMismatch b

/-- `WaitCrcWithTag`, any byte, by value (R53): R75 with R78, R79, R76. -/
def State.takeCrcTagged (b : Byte) (s : State) : Answer :=
  if b = s.rxCrc then s.deliverTagged else s.crcMismatch b

end Sys2Proof.Machine
end

