-- ==== Sys2Proof/Machine/Control.lean ====
section
/-! DEFINITION. The meanings of the control bytes (opcode_table.json rows START, END, END_TAG). -/

namespace Sys2Proof.Machine

/-- `START`: a start byte in the four classified positions (41_receiver.md R56, R58, R62, R69); in the two CRC
positions compared by value first (R53). -/
def execStart (s : State) : Answer :=
  match s.st with
  | .waitStart => s.restart
  | .waitDestinationId => s.restart
  | .waitByteHigh => s.restart
  | .waitByteLow => s.restart
  | .waitCrc => s.takeCrc START
  | .waitCrcWithTag => s.takeCrcTagged START

/-- `END`: R57, R61, R63, R71; by value in the CRC positions. -/
def execEndFrame (s : State) : Answer :=
  match s.st with
  | .waitStart => s.discard
  | .waitDestinationId => s.drop .structural
  | .waitByteHigh => s.endUntagged
  | .waitByteLow => s.drop .structural
  | .waitCrc => s.takeCrc END
  | .waitCrcWithTag => s.takeCrcTagged END

/-- `END_TAG`: R57, R61, R64 or R65, R71; by value in the CRC positions. -/
def execEndTag (s : State) : Answer :=
  match s.st with
  | .waitStart => s.discard
  | .waitDestinationId => s.drop .structural
  | .waitByteHigh => s.endTagged
  | .waitByteLow => s.drop .structural
  | .waitCrc => s.takeCrc END_TAG
  | .waitCrcWithTag => s.takeCrcTagged END_TAG

end Sys2Proof.Machine
end

