-- ==== Sys2Proof/Machine/Data.lean ====
section
/-! DEFINITION. The meanings of the sixteen codewords (opcode_table.json rows DATA_0 to DATA_F). -/

namespace Sys2Proof.Machine

/-- `DATA(n)`: R57, R59 or R60, R66 or R67, R70 (41_receiver.md); by value in the CRC positions, the value being the
codeword of `n` (30_encoding.md R34). -/
def State.dataByte (n : Nibble) (s : State) : Answer :=
  match s.st with
  | .waitStart => s.discard
  | .waitDestinationId => s.takeDestination n
  | .waitByteHigh => s.storeHigh n
  | .waitByteLow => s.storeLow n
  | .waitCrc => s.takeCrc (Codec.encNibble n)
  | .waitCrcWithTag => s.takeCrcTagged (Codec.encNibble n)

/-- `DATA_0`. -/
def execData0 (s : State) : Answer := s.dataByte 0x0

/-- `DATA_1`. -/
def execData1 (s : State) : Answer := s.dataByte 0x1

/-- `DATA_2`. -/
def execData2 (s : State) : Answer := s.dataByte 0x2

/-- `DATA_3`. -/
def execData3 (s : State) : Answer := s.dataByte 0x3

/-- `DATA_4`. -/
def execData4 (s : State) : Answer := s.dataByte 0x4

/-- `DATA_5`. -/
def execData5 (s : State) : Answer := s.dataByte 0x5

/-- `DATA_6`. -/
def execData6 (s : State) : Answer := s.dataByte 0x6

/-- `DATA_7`. -/
def execData7 (s : State) : Answer := s.dataByte 0x7

/-- `DATA_8`. -/
def execData8 (s : State) : Answer := s.dataByte 0x8

/-- `DATA_9`. -/
def execData9 (s : State) : Answer := s.dataByte 0x9

/-- `DATA_A`. -/
def execDataA (s : State) : Answer := s.dataByte 0xA

/-- `DATA_B`. -/
def execDataB (s : State) : Answer := s.dataByte 0xB

/-- `DATA_C`. -/
def execDataC (s : State) : Answer := s.dataByte 0xC

/-- `DATA_D`. -/
def execDataD (s : State) : Answer := s.dataByte 0xD

/-- `DATA_E`. -/
def execDataE (s : State) : Answer := s.dataByte 0xE

/-- `DATA_F`. -/
def execDataF (s : State) : Answer := s.dataByte 0xF

end Sys2Proof.Machine
end

