-- ==== Sys2Proof/Machine/Invalid.lean ====
section
/-! DEFINITION. The meaning of the 237 bytes that are neither control bytes nor codewords (opcode_table.json row
INVALID; 30_encoding.md R39). -/

namespace Sys2Proof.Machine

/-- `INVALID`: R57, R61, R68, R71 (41_receiver.md); by value in the CRC positions. -/
def execInvalid (w : Byte) (s : State) : Answer :=
  match s.st with
  | .waitStart => s.discard
  | .waitDestinationId => s.drop .structural
  | .waitByteHigh => s.drop .structural
  | .waitByteLow => s.drop .structural
  | .waitCrc => s.takeCrc w
  | .waitCrcWithTag => s.takeCrcTagged w

end Sys2Proof.Machine
end

