-- ==== Sys2Proof/Machine/Dispatch.lean ====
section
/-! DEFINITION. One arm per row of opcode_table.json (41_receiver.md R53). -/

namespace Sys2Proof.Machine

def exec (i : Instr) (s : State) : Host.Outcome State Fault Refusal :=
  match i with
  | .start => Sys2Proof.Machine.execStart s
  | .endFrame => Sys2Proof.Machine.execEndFrame s
  | .endTag => Sys2Proof.Machine.execEndTag s
  | .data0 => Sys2Proof.Machine.execData0 s
  | .data1 => Sys2Proof.Machine.execData1 s
  | .data2 => Sys2Proof.Machine.execData2 s
  | .data3 => Sys2Proof.Machine.execData3 s
  | .data4 => Sys2Proof.Machine.execData4 s
  | .data5 => Sys2Proof.Machine.execData5 s
  | .data6 => Sys2Proof.Machine.execData6 s
  | .data7 => Sys2Proof.Machine.execData7 s
  | .data8 => Sys2Proof.Machine.execData8 s
  | .data9 => Sys2Proof.Machine.execData9 s
  | .dataA => Sys2Proof.Machine.execDataA s
  | .dataB => Sys2Proof.Machine.execDataB s
  | .dataC => Sys2Proof.Machine.execDataC s
  | .dataD => Sys2Proof.Machine.execDataD s
  | .dataE => Sys2Proof.Machine.execDataE s
  | .dataF => Sys2Proof.Machine.execDataF s
  | .invalid w => Sys2Proof.Machine.execInvalid w s

end Sys2Proof.Machine
end

