-- ==== Sys2Proof/Machine/Sender.lean ====
section
/-! DEFINITION. The frame sender (42_sender.md): one whole operation, no state of its own. -/

namespace Sys2Proof.Machine

/-- `coerce(d)` (R88): `d` if it is a 4-bit value, else broadcast. -/
def coerce (d : Int) : Nibble := if 0 ≤ d ∧ d ≤ 15 then BitVec.ofInt 4 d else BROADCAST

/-- The two codewords of one raw byte to the sink, high nibble first (R87; 40_codec.md R48). -/
def State.writeEncoded (b : Byte) (s : State) : State :=
  (s.write (Codec.encNibble (Codec.highNibble b))).write (Codec.encNibble (Codec.lowNibble b))

/-- The payload loop of R87. -/
def State.writePayload : List Byte → State → State
  | [], s => s
  | b :: p, s => State.writePayload p (s.writeEncoded b)

/-- `send(d, p, t)` on a byte sequence (R87): start, destination, payload, tag if any, end byte, running CRC (R90). -/
def State.sendBytes (d : Int) (p : List Byte) (t : Option Tag) (s : State) : State :=
  let d' := coerce d
  let s1 := (s.write START).write (Codec.encNibble d')
  let c0 := Codec.crc8 CRC_INIT [Codec.zext8 d']
  let s2 := s1.writePayload p
  let c1 := Codec.crc8 c0 p
  match t with
  | none => (s2.write END).write c1
  | some v =>
    let th := Codec.tagHigh v
    let tl := Codec.tagLow v
    let c2 := Codec.crc8 c1 [th, tl]
    (((s2.writeEncoded th).writeEncoded tl).write END_TAG).write c2

/-- `send` with its argument guards (R89): a negative length, or a null pointer with a nonzero length, writes nothing;
a null pointer with length 0 sends an empty payload. -/
def State.send (r : SendRequest) (s : State) : State :=
  match r.payload with
  | .bytes p => s.sendBytes r.dest p r.tag
  | .null 0 => s.sendBytes r.dest [] r.tag
  | .null (_ + 1) => s
  | .negative _ => s

/-- The frame of 30_encoding.md R32, field by field, for the coerced destination `d`: what a `send` is to put on the
stream. The machine does not use it; statements do. -/
def frame (d : Nibble) (p : List Byte) (t : Option Tag) : List Byte :=
  [START, Codec.encNibble d]
    ++ p.flatMap Codec.encByte
    ++ (Codec.tagBytes t).flatMap Codec.encByte
    ++ [if t.isSome then END_TAG else END]
    ++ [Codec.crc8 CRC_INIT ([Codec.zext8 d] ++ p ++ Codec.tagBytes t)]

end Sys2Proof.Machine
end

