-- ==== Sys2Proof/Machine/Events.lean ====
section
/-! DEFINITION. What one event of the environment does (10_state.md R18, R20). -/

namespace Sys2Proof.Machine

/-- No event: nothing to do and nothing changes (10_state.md R18; 60_exceptions.md R110, R112). DEDUCED, safe
(log entry 7). -/
def State.idle (s : State) : Answer := .next s

/-- An input byte is classified and runs as its instruction (41_receiver.md R53); a request is one whole `send`
(42_sender.md R91). -/
def State.handle (e : Input) (s : State) : Answer :=
  match e with
  | .rxByte b => exec (classify b) s
  | .send r => .next (s.send r)

/-- The events of a stream of input bytes. -/
def rxBytes (bs : List Byte) : List Input := bs.map .rxByte

end Sys2Proof.Machine
end

