-- ==== Sys2Proof/Machine/Step.lean ====
section
/-! DEFINITION. One step of the block: the environment's next event, taken whole (20_memory.md R28). -/

namespace Sys2Proof.Machine

/-- The next event, or none: the fetch is State.takeInput, the effect State.handle or State.idle. -/
def step (s : State) : Host.Outcome State Fault Refusal :=
  match s.takeInput with
  | none => s.idle
  | some (e, t) => t.handle e

/-- `k` steps, stopping at the first that does not answer a next state. -/
def runSteps : Nat → State → Host.Outcome State Fault Refusal
  | 0, s => .next s
  | k + 1, s =>
    match step s with
    | .next t => runSteps k t
    | .fault f => .fault f
    | .refused r => .refused r

/-- The state whose next event is the byte with the bits `w` (log entry 15). -/
def State.withFetchWord (s : State) (nbits w : Nat) : State := s.pushInput (.rxByte (fetchWordByte nbits w))

end Sys2Proof.Machine
end

