-- ==== Sys2Proof/Safety.lean ====
section
/-! DEFINITION. The terms the claims use: the invariants of 41_receiver.md R80, the running-CRC invariant of 10_state.md
R21, the bound on delivered messages of 10_state.md R19, the step in the words of 41_receiver.md R53, and the causes of
a drop of 60_exceptions.md R96. -/

namespace Sys2Proof.Machine

/-- The four positions in which a byte is classified (30_encoding.md R40). -/
def Position.classified : Position → Bool
  | .waitStart => true
  | .waitDestinationId => true
  | .waitByteHigh => true
  | .waitByteLow => true
  | .waitCrc => false
  | .waitCrcWithTag => false

/-- The four positions of 41_receiver.md R80 (I1): a destination has been accepted. -/
def Position.receiving : Position → Bool
  | .waitStart => false
  | .waitDestinationId => false
  | .waitByteHigh => true
  | .waitByteLow => true
  | .waitCrc => true
  | .waitCrcWithTag => true

/-- The invariants of 41_receiver.md R80. `dest` and `len` always have values here (log entry 3), so what (I1) says of
them is their range. (I4) is a statement about the accesses, not a field. -/
structure State.Inv (s : State) : Prop where
  /-- The buffer is in its canonical form. -/
  bufWf : Memory.wf s.buf = true
  /-- Every written cell is one of the `BUF_CAP` cells (20_memory.md R23). -/
  bufInRange : ∀ cell ∈ s.buf, cell.1 < s.cfg.bufCap
  /-- (I1) `0 <= len <= BUF_CAP`. -/
  lenBound : s.st.receiving = true → s.len ≤ s.cfg.bufCap
  /-- (I1) every `buf[i]` with `i < len` has a value. -/
  bufWritten : s.st.receiving = true → ∀ i, i < s.len → (Memory.read s.buf i).isSome = true
  /-- (I1) `MY_ID = 0 or dest = 0 or dest = MY_ID`. -/
  destAccepted : s.st.receiving = true → s.cfg.myId = 0 ∨ s.dest = 0 ∨ s.dest = s.cfg.myId
  /-- (I2) `len < BUF_CAP` in `WaitByteLow`. -/
  roomLow : s.st = .waitByteLow → s.len < s.cfg.bufCap
  /-- (I2) the pending slot has a value whose low nibble is 0. -/
  pendingHalf : s.st = .waitByteLow → ∃ v, Memory.read s.buf s.len = some v ∧ Codec.lowNibble v = 0
  /-- (I3) `len >= 2` in `WaitCrcWithTag`. -/
  tagStored : s.st = .waitCrcWithTag → 2 ≤ s.len

/-- The invariant of the running CRC (10_state.md R21): in the four receiving positions it is the CRC of the
destination and the stored bytes. -/
def State.CrcRunInv (s : State) : Prop := s.st.receiving = true → s.rxCrc = s.crcRun

/-- Every event `msg(p, n, t)` has `n = |p|` and `n <= MAX_MESSAGE_SIZE` (10_state.md R19). -/
def State.DeliveredInv (s : State) : Prop :=
  ∀ m ∈ s.delivered, m.length = m.payload.length ∧ m.length ≤ s.cfg.maxMessageSize

/-- `rx_step(b)` with its tests in the order of 41_receiver.md R53. The machine does not use it: a statement says that
classifying the byte and running its instruction is the same. -/
def rxStep (b : Byte) (s : State) : Answer :=
  if s.st = .waitCrc ∨ s.st = .waitCrcWithTag then
    if b = s.rxCrc then
      if s.st = .waitCrc then
        if s.len ≤ s.cfg.maxMessageSize then s.deliver else s.drop .lengthExceeded
      else s.deliverTagged
    else if b = START ∧ s.cfg.crcMismatchStart = true then s.restart
    else s.drop .crcMismatch
  else if b = START then s.restart
  else if s.st = .waitStart then s.discard
  else if s.st = .waitDestinationId then
    match Codec.decCheck b with
    | some n => s.takeDestination n
    | none => s.drop .structural
  else if s.st = .waitByteHigh then
    if b = END then s.endUntagged
    else if b = END_TAG then s.endTagged
    else match Codec.decCheck b with
      | some n => s.storeHigh n
      | none => s.drop .structural
  else
    match Codec.decCheck b with
    | some n => s.storeLow n
    | none => s.drop .structural

/-- The cause for which instruction `i` drops the frame in state `s`, if it does, from the conditions of 60_exceptions.md
R96 to R102. A ghost: nothing stores it and no step depends on it (D15; log entry 13). -/
def dropCause (i : Instr) (s : State) : Option DropReason :=
  match s.st with
  | .waitStart => none
  | .waitDestinationId =>
    match i.nibble? with
    | some n => if s.cfg.myId = 0 ∨ n = 0 ∨ n = s.cfg.myId then none else some .notAddressed
    | none => if i = .start then none else some .structural
  | .waitByteHigh =>
    match i.nibble? with
    | some _ => if s.len < s.cfg.bufCap then none else some .overflow
    | none =>
      if i = .start ∨ i = .endFrame then none
      else if i = .endTag then (if s.len < 2 then some .malformedTag else none)
      else some .structural
  | .waitByteLow =>
    match i.nibble? with
    | some _ => none
    | none => if i = .start then none else some .structural
  | .waitCrc =>
    if i.byte = s.rxCrc then (if s.len ≤ s.cfg.maxMessageSize then none else some .lengthExceeded)
    else if i.byte = START ∧ s.cfg.crcMismatchStart = true then none
    else some .crcMismatch
  | .waitCrcWithTag =>
    if i.byte = s.rxCrc then none
    else if i.byte = START ∧ s.cfg.crcMismatchStart = true then none
    else some .crcMismatch

/-- The cells of `buf` that instruction `i` reads or writes in state `s` (20_memory.md R27). The machine does not use
it: a statement says that these are all. -/
def bufAccesses (i : Instr) (s : State) : List Nat :=
  match s.st with
  | .waitStart => []
  | .waitDestinationId => []
  | .waitByteHigh => if i.nibble?.isSome ∧ s.len < s.cfg.bufCap then [s.pendingSlot] else []
  | .waitByteLow => if i.nibble?.isSome then [s.pendingSlot] else []
  | .waitCrc => List.range s.len
  | .waitCrcWithTag => List.range s.len ++ [s.len - 2, s.len - 2 + 1]

end Sys2Proof.Machine
end

