-- ==== Sys2Proof/Certificates/Slice0/Obligations.lean ====
section
/-! DEFINITION. The statements for the provers, in the order of OBLIGATIONS.json. A rule number is a rule of spec/;
"the running CRC" is the optional register `crc_run` of 10_state.md R21, which the model keeps beside the registers the
rules name. -/

open Sys2Proof Sys2Proof.Machine

/-! ### Reset, invariants, totality -/

/-- 10_state.md R22, 70_reset_and_hazards.md R113, R114: a fresh instance waits for a start byte, has the parameters it
was built with, has no written buffer cell and has emitted and written nothing. That no cell is written is the model's
choice (log entry 4); nothing is said of the chosen values of `dest`, `len` and the running CRC. -/
def Obligations.FreshInstanceWaitsForStart : Prop :=
  State.reset = State.resetWith Config.built ∧
  ∀ c : Config,
    (State.resetWith c).st = .waitStart ∧ (State.resetWith c).cfg = c ∧
    (∀ i, Memory.read (State.resetWith c).buf i = none) ∧
    (State.resetWith c).delivered = [] ∧ (State.resetWith c).tx = [] ∧ (State.resetWith c).input = []

/-- 41_receiver.md R80 at reset, with the running-CRC invariant (10_state.md R21) and the bound on messages (R19). -/
def Obligations.FreshInstanceMeetsInvariants : Prop :=
  ∀ c : Config, (State.resetWith c).Inv ∧ (State.resetWith c).CrcRunInv ∧ (State.resetWith c).DeliveredInv

/-- 41_receiver.md R80, whole: the invariants hold after reset, and from every state that meets them a step answers a
next state that meets them again, and (I4) every access to `buf` is in range. That `bufAccesses` leaves no access out is
the last clause, for every state: the other cells keep their values, and whatever they hold, exec does the same. -/
def Obligations.StepKeepsReceiverInvariants : Prop :=
  (∀ c : Config, (State.resetWith c).Inv) ∧
  (∀ s : State, s.Inv → (∃ t, step s = .next t ∧ t.Inv) ∧
    ∀ (i : Instr) (a : Nat), a ∈ bufAccesses i s → a < s.cfg.bufCap) ∧
  (∀ (i : Instr) (s : State) (m : Memory), (∀ a ∈ bufAccesses i s, Memory.read m a = Memory.read s.buf a) →
    ∃ (t : State) (m' : Memory), exec i s = .next t ∧ exec i { s with buf := m } = .next { t with buf := m' } ∧
      ∀ a, a ∉ bufAccesses i s →
        Memory.read t.buf a = Memory.read s.buf a ∧ Memory.read m' a = Memory.read m a)

/-- 60_exceptions.md R95: from every state, whether or not a run reaches it, a step has a successor; every instruction
has exactly one, which differs by at most one `msg` event in what the block puts out and keeps the sink as it was; and
where the instruction drops the frame it puts out and records nothing: only the position changes. -/
def Obligations.EveryByteHasASuccessor : Prop :=
  (∀ s : State, ∃ t, step s = .next t) ∧
  ∀ (i : Instr) (s : State),
    ∃ t, exec i s = .next t ∧ (∀ u, exec i s = .next u → u = t) ∧ t.tx = s.tx ∧
      (t.delivered = s.delivered ∨ ∃ m, t.delivered = s.delivered ++ [m]) ∧
      (∀ r, dropCause i s = some r → t = { s with st := .waitStart })

/-- 10_state.md R16: the parameters are read-only. -/
def Obligations.ParametersNeverChange : Prop :=
  ∀ (k : Nat) (s t : State), runSteps k s = .next t → t.cfg = s.cfg

/-- 10_state.md R21: the running CRC and the CRC computed when the CRC byte arrives cannot be told apart, because a step
keeps them equal in the four receiving positions. -/
def Obligations.StepKeepsRunningCrc : Prop :=
  ∀ s t : State, s.Inv → s.CrcRunInv → step s = .next t → t.CrcRunInv

/-- 10_state.md R19: a step emits at most one `msg(p, n, t)`, with `n` the length of `p` and at most
`MAX_MESSAGE_SIZE`, and alters no event already emitted. -/
def Obligations.StepEmitsAtMostOneBoundedMessage : Prop :=
  ∀ s t : State, s.Inv → step s = .next t →
    t.delivered = s.delivered ∨
    ∃ m : Message, t.delivered = s.delivered ++ [m] ∧ m.length = m.payload.length ∧
      m.length ≤ s.cfg.maxMessageSize

/-! ### Fetch, decode, encode -/

/-- 41_receiver.md R53, 10_state.md R18: when the next event is the byte of a well-formed instruction, a step takes the
event and is that instruction's exec; a request is one whole `send`; with no event nothing changes. The word the host
places is the next event. -/
def Obligations.StepRunsDecodedInstruction : Prop :=
  (∀ (i : Instr) (s : State) (rest : List Input), i.wellFormed = true → s.input = .rxByte i.byte :: rest →
    step s = exec i { s with input := rest }) ∧
  (∀ (r : SendRequest) (s : State) (rest : List Input), s.input = .send r :: rest →
    step s = .next (State.send r { s with input := rest })) ∧
  (∀ s : State, s.input = [] → step s = .next s) ∧
  (∀ (s : State) (w : Nat), step (s.withFetchWord 8 w) = exec (classify (BitVec.ofNat 8 w)) s)

/-- 30_encoding.md R34, R35: a few words as the encoding tables write them. A sanity statement. -/
def Obligations.TableWordsDecode : Prop :=
  decodeTableWord 8 0x0C = some .start ∧ decodeTableWord 8 0x03 = some .endFrame ∧
  decodeTableWord 8 0x06 = some .endTag ∧ decodeTableWord 8 0x0F = some .data0 ∧
  decodeTableWord 8 0x4B = some .data4 ∧ decodeTableWord 8 0xA5 = some .dataA ∧
  decodeTableWord 8 0xF0 = some .dataF ∧ decodeTableWord 8 0x4A = some (.invalid 0x4A) ∧
  decodeTableWord 8 0x00 = some (.invalid 0x00)

/-- 30_encoding.md R36: decode and encode agree in both directions: every well-formed instruction comes back from its
word with the bytes after it untouched, and every byte list that is not empty decodes to a well-formed instruction
whose word it begins with. -/
def Obligations.DecodeEncodeAgree : Prop :=
  (∀ (i : Instr) (rest : List Byte), i.wellFormed = true → decode (encode i ++ rest) = .ok (i, rest)) ∧
  (∀ (bytes : List Byte), bytes ≠ [] →
    ∃ i rest, decode bytes = .ok (i, rest) ∧ i.wellFormed = true ∧ bytes = encode i ++ rest) ∧
  decode [] = .error .noByte

/-- 30_encoding.md R36: the five classes, each by the condition the rule gives it, and their sizes. -/
def Obligations.ClassOfEveryByte : Prop :=
  (∀ w : Byte,
    (classify w = .start ↔ w = 0x0C) ∧ (classify w = .endFrame ↔ w = 0x03) ∧ (classify w = .endTag ↔ w = 0x06) ∧
    (∀ n : Nibble, classify w = dataInstr n ↔ w.extractLsb' 4 4 = n ∧ n = w.extractLsb' 0 4 ^^^ 0xF) ∧
    (classify w = .invalid w ↔
      w ≠ 0x0C ∧ w ≠ 0x03 ∧ w ≠ 0x06 ∧ w.extractLsb' 4 4 ≠ w.extractLsb' 0 4 ^^^ 0xF)) ∧
  ((List.range 256).filter fun k => (classify (BitVec.ofNat 8 k)).nibble?.isSome).length = 16 ∧
  ((List.range 256).filter fun k => classify (BitVec.ofNat 8 k) = .invalid (BitVec.ofNat 8 k)).length = 237

/-- 41_receiver.md R53, 60_exceptions.md R106: classifying a byte and running its instruction is the step with the
rule's own order of tests: in the two CRC positions the comparison first, then START, then the mismatch; in the four
others START first, then END, END_TAG and the codeword test. -/
def Obligations.InstructionsFollowTheStepOrder : Prop :=
  ∀ (b : Byte) (s : State), exec (classify b) s = rxStep b s

/-! ### The receive rules, position by position -/

/-- 41_receiver.md R56, R58, R62, R69: in the four classified positions START gives `WaitDestinationId` and changes
nothing else. -/
def Obligations.StartRestartsReconstruction : Prop :=
  ∀ s : State, s.st.classified = true → exec .start s = .next { s with st := .waitDestinationId }

/-- 41_receiver.md R57: in `WaitStart` every instruction but START leaves everything as it is. -/
def Obligations.WaitStartIgnoresAllButStart : Prop :=
  ∀ (i : Instr) (s : State), i ≠ .start → s.st = .waitStart → exec i s = .next s

/-- 41_receiver.md R59: an addressed destination codeword is kept, `len` is 0, payload follows; `buf` is not touched.
Nothing is said here of the optional running CRC (RunningCrcIsSeededAndAdvanced does). -/
def Obligations.AddressedDestinationAccepted : Prop :=
  ∀ (n : Nibble) (s : State), s.st = .waitDestinationId →
    (s.cfg.myId = 0 ∨ n = 0 ∨ n = s.cfg.myId) →
    ∃ t : State, exec (dataInstr n) s = .next t ∧
      t = { s with dest := n, len := 0, st := .waitByteHigh, crcRun := t.crcRun }

/-- 41_receiver.md R60: a destination for another receiver drops the frame; `dest` and `len` are not written. -/
def Obligations.ForeignDestinationDropped : Prop :=
  ∀ (n : Nibble) (s : State), s.st = .waitDestinationId →
    s.cfg.myId ≠ 0 → n ≠ 0 → n ≠ s.cfg.myId →
    exec (dataInstr n) s = .next { s with st := .waitStart }

/-- 41_receiver.md R61, R71 and 60_exceptions.md R97: where a codeword is required, END, END_TAG and INVALID drop the
frame and change nothing else. -/
def Obligations.NonCodewordDropsFrame : Prop :=
  ∀ (i : Instr) (s : State), (i = .endFrame ∨ i = .endTag ∨ ∃ w, i = .invalid w) →
    (s.st = .waitDestinationId ∨ s.st = .waitByteLow) →
    exec i s = .next { s with st := .waitStart }

/-- 41_receiver.md R63: END at a byte boundary awaits the CRC, whatever the length. -/
def Obligations.EndAwaitsCrc : Prop :=
  ∀ s : State, s.st = .waitByteHigh → exec .endFrame s = .next { s with st := .waitCrc }

/-- 41_receiver.md R64, R65: END_TAG at a byte boundary awaits the CRC of a tagged frame if two bytes are stored, and
drops the frame if fewer are. -/
def Obligations.EndTagNeedsTwoBytes : Prop :=
  ∀ s : State, s.st = .waitByteHigh →
    (2 ≤ s.len → exec .endTag s = .next { s with st := .waitCrcWithTag }) ∧
    (s.len < 2 → exec .endTag s = .next { s with st := .waitStart })

/-- 41_receiver.md R66: with room, a high nibble `n` puts `n*16` into the pending slot `buf[len]` and nothing else
changes; `len` is not advanced. -/
def Obligations.HighNibbleGoesToPendingSlot : Prop :=
  ∀ (n : Nibble) (s : State), s.st = .waitByteHigh → s.len < s.cfg.bufCap →
    ∃ (t : State) (v : Byte), exec (dataInstr n) s = .next t ∧
      t = { s with st := .waitByteLow, buf := t.buf } ∧
      Memory.read t.buf s.pendingSlot = some v ∧ v.toNat = n.toNat * 16 ∧
      ∀ a, a ≠ s.pendingSlot → Memory.read t.buf a = Memory.read s.buf a

/-- 41_receiver.md R67: with `len = BUF_CAP` a further data byte drops the frame and writes nothing. -/
def Obligations.FullBufferDropsFrame : Prop :=
  ∀ (n : Nibble) (s : State), s.st = .waitByteHigh → s.len = s.cfg.bufCap →
    exec (dataInstr n) s = .next { s with st := .waitStart }

/-- 41_receiver.md R68: an INVALID byte at a byte boundary drops the frame. -/
def Obligations.InvalidByteDropsPayload : Prop :=
  ∀ (w : Byte) (s : State), s.st = .waitByteHigh →
    exec (.invalid w) s = .next { s with st := .waitStart }

/-- 41_receiver.md R70: a low nibble `n` completes the pending byte as `v + n` without carry, counts it and awaits the
next high nibble; no other cell changes. Nothing is said here of the optional running CRC. -/
def Obligations.LowNibbleCompletesByte : Prop :=
  ∀ (n : Nibble) (s : State), s.Inv → s.st = .waitByteLow →
    ∃ (t : State) (v w : Byte), exec (dataInstr n) s = .next t ∧
      Memory.read s.buf s.pendingSlot = some v ∧ Memory.read t.buf s.pendingSlot = some w ∧
      w.toNat = v.toNat + n.toNat ∧
      (∀ a, a ≠ s.pendingSlot → Memory.read t.buf a = Memory.read s.buf a) ∧
      t = { s with st := .waitByteHigh, len := s.len + 1, buf := t.buf, crcRun := t.crcRun }

/-- The model's choice (log entry 5) to keep the optional register of 10_state.md R21: it is set to the CRC of an
accepted destination, and takes each byte a low nibble completes. -/
def Obligations.RunningCrcIsSeededAndAdvanced : Prop :=
  (∀ (n : Nibble) (s : State), s.st = .waitDestinationId → (s.cfg.myId = 0 ∨ n = 0 ∨ n = s.cfg.myId) →
    ∃ t : State, exec (dataInstr n) s = .next t ∧ t.crcRun = Codec.crc8 CRC_INIT [n.setWidth 8]) ∧
  (∀ (n : Nibble) (s : State), s.Inv → s.st = .waitByteLow →
    ∃ (t : State) (b : Byte), exec (dataInstr n) s = .next t ∧ Memory.read t.buf s.len = some b ∧
      t.crcRun = Codec.crc8 s.crcRun [b])

/-- 41_receiver.md R55: the computed CRC covers the destination as one byte and then the `len` stored bytes, which in
the four receiving positions all have values. -/
def Obligations.ComputedCrcCoversStoredBytes : Prop :=
  ∀ s : State, s.Inv → s.st.receiving = true →
    ∃ p : List Byte, p.length = s.len ∧ (∀ j, j < s.len → Memory.read s.buf j = p[j]?) ∧
      s.rxCrc = Codec.crc8 (Codec.crc8 CRC_INIT [s.dest.setWidth 8]) p

/-- 41_receiver.md R72, R77: in `WaitCrc` any instruction whose byte is the computed CRC delivers the stored bytes as an
untagged message if their number is within the limit, START included. -/
def Obligations.MatchingCrcDeliversMessage : Prop :=
  ∀ (i : Instr) (s : State), s.Inv → s.st = .waitCrc → s.rxCrc = i.byte →
    s.len ≤ s.cfg.maxMessageSize →
    ∃ p : List Byte, p.length = s.len ∧ (∀ j, j < s.len → p[j]? = Memory.read s.buf j) ∧
      exec i s =
        .next { s with st := .waitStart, delivered := s.delivered ++ [⟨p, s.len, none⟩] }

/-- 41_receiver.md R73: the same byte with more than `MAX_MESSAGE_SIZE` stored bytes drops the frame, START
included: nothing is delivered. -/
def Obligations.OverlongVerifiedFrameDropped : Prop :=
  ∀ (i : Instr) (s : State), s.st = .waitCrc → s.rxCrc = i.byte →
    s.cfg.maxMessageSize < s.len → exec i s = .next { s with st := .waitStart }

/-- 41_receiver.md R74, R76: in the two CRC positions a byte that differs from the computed CRC drops the frame, unless
it is a START under `CRC_MISMATCH_START`; `len` is not reduced. -/
def Obligations.CrcMismatchDropsFrame : Prop :=
  ∀ (i : Instr) (s : State), (s.st = .waitCrc ∨ s.st = .waitCrcWithTag) → i.byte ≠ s.rxCrc →
    ¬ (i.byte = START ∧ s.cfg.crcMismatchStart = true) →
    exec i s = .next { s with st := .waitStart }

/-- 41_receiver.md R75, R78: in `WaitCrcWithTag` any instruction whose byte is the computed CRC delivers all but the
last two stored bytes, with those two as the tag, high byte first; `len` is reduced by 2 and `buf` keeps the tag. -/
def Obligations.MatchingCrcDeliversTaggedMessage : Prop :=
  ∀ (i : Instr) (s : State), s.Inv → s.st = .waitCrcWithTag → s.rxCrc = i.byte →
    ∃ (p : List Byte) (hi lo : Byte) (g : Tag),
      p.length = s.len - 2 ∧ (∀ j, j < s.len - 2 → p[j]? = Memory.read s.buf j) ∧
      Memory.read s.buf (s.len - 2) = some hi ∧ Memory.read s.buf (s.len - 1) = some lo ∧
      g.toNat = hi.toNat * 256 + lo.toNat ∧ s.len - 2 ≤ s.cfg.maxMessageSize ∧
      exec i s =
        .next { s with st := .waitStart, len := s.len - 2,
                       delivered := s.delivered ++ [⟨p, s.len - 2, some g⟩] }

/-- 41_receiver.md R79: a START that is not the computed CRC restarts reconstruction when the parameter says so, and is
an ordinary mismatch when it does not. -/
def Obligations.StartThatIsNotTheCrc : Prop :=
  ∀ s : State, (s.st = .waitCrc ∨ s.st = .waitCrcWithTag) → s.rxCrc ≠ START →
    exec .start s =
      .next { s with st := if s.cfg.crcMismatchStart = true then .waitDestinationId else .waitStart }

/-! ### Drops and frames -/

/-- 60_exceptions.md R104 with the causes of R96: where the rules name a cause, the instruction gives `WaitStart` and
changes nothing else. -/
def Obligations.DropChangesPositionOnly : Prop :=
  ∀ (i : Instr) (s : State) (r : DropReason), dropCause i s = some r →
    exec i s = .next { s with st := .waitStart }

/-- 60_exceptions.md R96: there is no other way back to `WaitStart` than a drop with a cause or a delivery. -/
def Obligations.WaitStartOnlyByDropOrDelivery : Prop :=
  ∀ (i : Instr) (s t : State), exec i s = .next t → s.st ≠ .waitStart → t.st = .waitStart →
    (∃ r, dropCause i s = some r ∧ t.delivered = s.delivered) ∨
    (dropCause i s = none ∧ ∃ m, t.delivered = s.delivered ++ [m])

/-- 60_exceptions.md R105, 41_receiver.md R57, 70_reset_and_hazards.md R127: in `WaitStart` a stream with no START
passes over, however long, and changes nothing. -/
def Obligations.OnlyStartEndsWaiting : Prop :=
  ∀ (s : State) (bs : List Byte) (rest : List Input), s.st = .waitStart → START ∉ bs →
    s.input = rxBytes bs ++ rest → runSteps bs.length s = .next { s with input := rest }

/-- The frame of START, END, END_TAG and INVALID (20_memory.md R27, 10_state.md section 7): they store nothing, and they
write no register but `st` and, on a tagged delivery, `len`; only a matching CRC emits. -/
def Obligations.FrameOfControlAndInvalidBytes : Prop :=
  ∀ (i : Instr) (s t : State), i.nibble? = none → exec i s = .next t →
    t.cfg = s.cfg ∧ t.dest = s.dest ∧ t.crcRun = s.crcRun ∧ t.input = s.input ∧ t.tx = s.tx ∧
    (∀ a, Memory.read t.buf a = Memory.read s.buf a) ∧
    (¬ (s.st = .waitCrcWithTag ∧ s.rxCrc = i.byte) → t.len = s.len) ∧
    (¬ ((s.st = .waitCrc ∨ s.st = .waitCrcWithTag) ∧ s.rxCrc = i.byte) → t.delivered = s.delivered)

/-- The frame of the sixteen DATA instructions (20_memory.md R27, 10_state.md section 7): the only cell stored to is
the pending slot of the state before, and only in the two payload positions; `dest` is written only as a destination,
`len` and the running CRC only there and when a byte is completed, `len` also on a tagged delivery; only a matching CRC
emits. -/
def Obligations.FrameOfDataBytes : Prop :=
  ∀ (n : Nibble) (s t : State), exec (dataInstr n) s = .next t →
    t.cfg = s.cfg ∧ t.input = s.input ∧ t.tx = s.tx ∧
    (∀ a, a ≠ s.pendingSlot → Memory.read t.buf a = Memory.read s.buf a) ∧
    (s.st ≠ .waitByteHigh → s.st ≠ .waitByteLow → ∀ a, Memory.read t.buf a = Memory.read s.buf a) ∧
    (s.st ≠ .waitDestinationId → t.dest = s.dest) ∧
    (s.st ≠ .waitDestinationId → s.st ≠ .waitByteLow → t.crcRun = s.crcRun) ∧
    (s.st ≠ .waitDestinationId → s.st ≠ .waitByteLow →
      ¬ (s.st = .waitCrcWithTag ∧ s.rxCrc = (dataInstr n).byte) → t.len = s.len) ∧
    (¬ ((s.st = .waitCrc ∨ s.st = .waitCrcWithTag) ∧ s.rxCrc = (dataInstr n).byte) →
      t.delivered = s.delivered)

/-! ### Codec -/

/-- 40_codec.md R45: chaining. -/
def Obligations.CrcChainsOverSpans : Prop :=
  ∀ (s : Byte) (a b : List Byte), Codec.crc8 (Codec.crc8 s a) b = Codec.crc8 s (a ++ b)

/-- 40_codec.md R44: the bit-serial form and the whole-byte form agree for every register and byte. -/
def Obligations.CrcSerialEqualsWholeByteForm : Prop :=
  ∀ c x : Byte,
    Codec.crc8 c [x] =
      Nat.iterate (fun r : Byte => if r.getLsbD 0 = true then (r >>> 1) ^^^ 0x8C else r >>> 1) 8 (c ^^^ x)

/-- 40_codec.md R44: its corner cases and the check value of its named algorithm. A sanity statement. -/
def Obligations.CrcCornerCases : Prop :=
  (∀ s : Byte, Codec.crc8 s [] = s) ∧ Codec.crc8 0x00 [0x00] = 0x00 ∧ Codec.crc8 0x00 [0x01] = 0x5E ∧
  Codec.crc8 0x00 [0x80] = 0x8C ∧ Codec.crc8 0x00 [0xFF] = 0x35 ∧ Codec.crc8 0x00 [0x02] = 0xBC ∧
  Codec.crc8 0x00 [0x31, 0x32, 0x33, 0x34, 0x35, 0x36, 0x37, 0x38, 0x39] = 0xA1

/-- 40_codec.md R51 (a), (b): linearity over XOR and the zero residue. -/
def Obligations.CrcIsLinearWithZeroResidue : Prop :=
  (∀ a b : List Byte, a.length = b.length →
    Codec.crc8 0 (List.zipWith (· ^^^ ·) a b) = Codec.crc8 0 a ^^^ Codec.crc8 0 b) ∧
  (∀ (s : Byte) (a : List Byte),
    Codec.crc8 s a = Codec.crc8 0 a ^^^ Codec.crc8 s (List.replicate a.length 0)) ∧
  (∀ m : List Byte, Codec.crc8 0 (m ++ [Codec.crc8 0 m]) = 0)

/-- 40_codec.md R51 (c), (d): one byte to its CRC is a bijection, and a change confined to one byte of a sequence
always changes the CRC. -/
def Obligations.CrcDetectsAnyOneByteChange : Prop :=
  (Function.Bijective fun b : Byte => Codec.crc8 0 [b]) ∧
  (∀ (s x y : Byte) (a b : List Byte), x ≠ y → Codec.crc8 s (a ++ x :: b) ≠ Codec.crc8 s (a ++ y :: b))

/-- 40_codec.md R47, R49: a nibble travels as itself over its complement, decoding inverts encoding, and only codewords
decode. -/
def Obligations.NibbleCodecInverts : Prop :=
  (∀ n : Nibble, (Codec.encNibble n).extractLsb' 4 4 = n ∧ (Codec.encNibble n).extractLsb' 0 4 = n ^^^ 0xF ∧
    Codec.decCheck (Codec.encNibble n) = some n) ∧
  (∀ (w : Byte) (n : Nibble), Codec.decCheck w = some n ↔ w = Codec.encNibble n)

/-- 40_codec.md R48, R50: a raw byte travels as its high nibble's codeword and then its low nibble's, and decodes to
itself. -/
def Obligations.ByteCodecInverts : Prop :=
  ∀ b : Byte, ∃ wHi wLo : Byte, Codec.encByte b = [wHi, wLo] ∧
    Codec.decCheck wHi = some (b.extractLsb' 4 4) ∧ Codec.decCheck wLo = some (b.extractLsb' 0 4) ∧
    Codec.decByte wHi wLo = some b

/-- 30_encoding.md R43: how far codewords and control bytes are from one another, in bits. A sanity statement. -/
def Obligations.CodewordsKeepTheirDistance : Prop :=
  let bitsApart := fun (a b : Byte) => ((List.range 8).filter fun k => (a ^^^ b).getLsbD k).length
  (∀ n m : Nibble, n ≠ m → 2 ≤ bitsApart (Codec.encNibble n) (Codec.encNibble m)) ∧
  bitsApart 0x0F 0x1E = 2 ∧
  (∀ n : Nibble, 2 ≤ bitsApart (Codec.encNibble n) 0x0C ∧ 2 ≤ bitsApart (Codec.encNibble n) 0x03 ∧
    2 ≤ bitsApart (Codec.encNibble n) 0x06) ∧
  (∀ (n : Nibble) (k : Fin 8), ∃ w, classify (Codec.encNibble n ^^^ BitVec.twoPow 8 k) = .invalid w) ∧
  (bitsApart 0x4B 0x5A = 2 ∧ classify 0x5A = .data5) ∧ bitsApart 0x0F 0x0C = 2 ∧
  (∀ k : Fin 8, ∃ w, classify (0x0C ^^^ BitVec.twoPow 8 k) = .invalid w) ∧
  bitsApart 0x03 0x06 = 2 ∧ bitsApart 0x0C 0x03 = 4 ∧ bitsApart 0x0C 0x06 = 2

/-- 30_encoding.md R43 (c), 41_receiver.md R61, R68, R71: one flipped bit in a codeword gives a byte that drops the
frame wherever a codeword is awaited. -/
def Obligations.FlippedBitInCodewordIsRejected : Prop :=
  ∀ (n : Nibble) (k : Nat) (s : State), k < 8 →
    (s.st = .waitDestinationId ∨ s.st = .waitByteHigh ∨ s.st = .waitByteLow) →
    exec (classify (Codec.encNibble n ^^^ BitVec.twoPow 8 k)) s = .next { s with st := .waitStart }

/-! ### The sender -/

/-- 42_sender.md R87, R90 and 30_encoding.md R32: one `send` of a byte sequence writes exactly the frame of R32 for the
coerced destination, its CRC the one computation over destination, payload and tag bytes, and touches nothing else. -/
def Obligations.SendWritesTheFrame : Prop :=
  ∀ (s : State) (d : Int) (p : List Byte) (g : Option Tag) (rest : List Input),
    s.input = .send ⟨d, .bytes p, g⟩ :: rest →
    step s = .next { s with input := rest, tx := s.tx ++ frame (coerce d) p g }

/-- 42_sender.md R88: a destination in 0 .. 15 is sent as it is, any other as a broadcast. -/
def Obligations.DestinationCoercedToBroadcast : Prop :=
  ∀ (s : State) (d : Int) (p : PayloadArg) (g : Option Tag),
    (0 ≤ d → d ≤ 15 → ((coerce d).toNat : Int) = d) ∧
    ((d < 0 ∨ 15 < d) → coerce d = 0 ∧ State.send ⟨d, p, g⟩ s = State.send ⟨0, p, g⟩ s)

/-- 42_sender.md R89, 60_exceptions.md R103: a negative length, or a null pointer with a nonzero length, writes nothing
and changes nothing; a null pointer with length 0 sends an empty payload. -/
def Obligations.GuardedSendWritesNothing : Prop :=
  ∀ (s : State) (d : Int) (g : Option Tag),
    (∀ k, State.send ⟨d, .negative k, g⟩ s = s) ∧
    (∀ k, 0 < k → State.send ⟨d, .null k, g⟩ s = s) ∧
    State.send ⟨d, .null 0, g⟩ s = State.send ⟨d, .bytes [], g⟩ s

/-- 42_sender.md R94, 30_encoding.md R33: the shape of what a `send` writes. -/
def Obligations.SentFrameShape : Prop :=
  ∀ (s : State) (d : Int) (p : List Byte) (g : Option Tag),
    ∃ f : List Byte, (State.send ⟨d, .bytes p, g⟩ s).tx = s.tx ++ f ∧
      f.length = (if g.isSome then 8 else 4) + 2 * p.length ∧
      f[0]? = some START ∧ f[f.length - 2]? = some (if g.isSome then END_TAG else END) ∧
      ∀ (j : Nat) (w : Byte), 0 < j → j < f.length - 2 → f[j]? = some w →
        (∃ n, w = Codec.encNibble n) ∧ w ≠ START ∧ w ≠ END ∧ w ≠ END_TAG

/-- 30_encoding.md R33, 70_reset_and_hazards.md R122: a tagged frame and the untagged frame whose payload ends in the
tag's two bytes differ in the end byte alone. -/
def Obligations.TagIsMarkedByEndByteAlone : Prop :=
  ∀ (d : Nibble) (p : List Byte) (v : Tag),
    ∃ (body : List Byte) (c : Byte), frame d p (some v) = body ++ [END_TAG, c] ∧
      frame d (p ++ [v.extractLsb' 8 8, v.extractLsb' 0 8]) none = body ++ [END, c]

/-- 10_state.md R10, R20, 42_sender.md R93: a `send` and an input byte that follow one another may change places. -/
def Obligations.SendAndReceiveCommute : Prop :=
  ∀ (s : State) (r : SendRequest) (b : Byte) (rest : List Input),
    ∃ t, runSteps 2 { s with input := .send r :: .rxByte b :: rest } = .next t ∧
      runSteps 2 { s with input := .rxByte b :: .send r :: rest } = .next t

/-! ### Streams -/

/-- 41_receiver.md R85, R54: cutting a stream into passes, with any number of idle polls after a pass, gives the same
run. -/
def Obligations.PassBoundariesDoNotMatter : Prop :=
  ∀ (s t : State) (as bs : List Byte) (idle : Nat),
    runSteps (as.length + idle) { s with input := rxBytes as } = .next t →
    runSteps (as.length + bs.length) { s with input := rxBytes (as ++ bs) } =
      runSteps bs.length { t with input := rxBytes bs }

/-- 41_receiver.md R81, the addressed case: from any position that is not awaiting a CRC, or awaiting one that is not
START under `CRC_MISMATCH_START`, the bytes of a frame give exactly one message, at the last byte, and the receiver
ends in `WaitStart`. -/
def Obligations.AddressedFrameRoundTrips : Prop :=
  ∀ (s : State) (d : Nibble) (p : List Byte) (g : Option Tag) (rest : List Input),
    s.input = rxBytes (frame d p g) ++ rest → p.length ≤ s.cfg.maxMessageSize →
    (s.cfg.myId = 0 ∨ d = 0 ∨ d = s.cfg.myId) →
    (s.st.classified = true ∨ (s.cfg.crcMismatchStart = true ∧ s.rxCrc ≠ START)) →
    (∀ j, j < (frame d p g).length → ∃ u, runSteps j s = .next u ∧ u.delivered = s.delivered) ∧
    ∃ t, runSteps (frame d p g).length s = .next t ∧ t.st = .waitStart ∧
      t.delivered = s.delivered ++ [⟨p, p.length, g⟩] ∧ t.input = rest ∧ t.tx = s.tx ∧ t.cfg = s.cfg

/-- 41_receiver.md R81, the other case: a frame for another receiver gives no message, and its CRC byte is processed in
`WaitStart`. -/
def Obligations.ForeignFrameGivesNoMessage : Prop :=
  ∀ (s : State) (d : Nibble) (p : List Byte) (g : Option Tag) (rest : List Input),
    s.input = rxBytes (frame d p g) ++ rest → s.st.classified = true →
    s.cfg.myId ≠ 0 → d ≠ 0 → d ≠ s.cfg.myId →
    (∃ u, runSteps ((frame d p g).length - 1) s = .next u ∧ u.st = .waitStart ∧ u.delivered = s.delivered) ∧
    ∃ t, runSteps (frame d p g).length s = .next t ∧ t.delivered = s.delivered ∧ t.input = rest

/-- 70_reset_and_hazards.md R126, 41_receiver.md R81: when a frame's START is taken as the awaited CRC, or is an
ordinary mismatch because `CRC_MISMATCH_START` is false, the new frame is lost. The START emits nothing or one message
of the old frame's stored bytes, and nothing when it is a mismatch; the bytes after it emit nothing. -/
def Obligations.StartTakenAsCrcLosesFrame : Prop :=
  ∀ (s : State) (d : Nibble) (p : List Byte) (g : Option Tag) (rest : List Input), s.Inv →
    s.input = rxBytes (frame d p g) ++ rest → (s.st = .waitCrc ∨ s.st = .waitCrcWithTag) →
    (s.rxCrc = START ∨ s.cfg.crcMismatchStart = false) →
    ∃ u t, runSteps 1 s = .next u ∧ u.st = .waitStart ∧
      (u.delivered = s.delivered ∨
        ∃ m, u.delivered = s.delivered ++ [m] ∧ m.payload.length = m.length ∧
          s.len = m.length + (if m.tag.isSome then 2 else 0) ∧
          (∀ j, j < m.length → m.payload[j]? = Memory.read s.buf j) ∧
          ∀ v, m.tag = some v → ∃ hi lo : Byte, Memory.read s.buf m.length = some hi ∧
            Memory.read s.buf (m.length + 1) = some lo ∧ v.toNat = hi.toNat * 256 + lo.toNat) ∧
      (s.rxCrc ≠ START → u.delivered = s.delivered) ∧
      runSteps (frame d p g).length s = .next t ∧ t.delivered = u.delivered ∧ t.input = rest

/-- 41_receiver.md R83: a frame with one bit of one codeword (fields 2 to 4) flipped gives no message, whatever its
addressee; the receiver is in `WaitStart` after the damaged byte. -/
def Obligations.CorruptedCodewordGivesNoMessage : Prop :=
  ∀ (s : State) (d : Nibble) (p : List Byte) (g : Option Tag) (j k : Nat) (w : Byte) (rest : List Input),
    s.st.classified = true → 1 ≤ j → j < (frame d p g).length - 2 → k < 8 → (frame d p g)[j]? = some w →
    s.input = rxBytes ((frame d p g).set j (w ^^^ BitVec.twoPow 8 k)) ++ rest →
    (∃ u, runSteps (j + 1) s = .next u ∧ u.st = .waitStart) ∧
    ∃ t, runSteps (frame d p g).length s = .next t ∧ t.delivered = s.delivered ∧ t.input = rest

/-- 42_sender.md R92, 70_reset_and_hazards.md R128: a payload longer than `MAX_MESSAGE_SIZE` is never delivered,
tagged or not, in part or whole. -/
def Obligations.OverlongFrameGivesNoMessage : Prop :=
  ∀ (s : State) (d : Nibble) (p : List Byte) (g : Option Tag) (rest : List Input),
    s.input = rxBytes (frame d p g) ++ rest → s.st.classified = true → s.cfg.maxMessageSize < p.length →
    ∃ t, runSteps (frame d p g).length s = .next t ∧ t.delivered = s.delivered ∧ t.input = rest

/-- 41_receiver.md R86: a message is emitted only by the last byte of a stream that ends in a START processed as a
start, an addressed destination codeword, the codewords of `m` raw bytes, END with `m` within the limit or END_TAG with
at least two bytes, and the CRC of what was decoded; and the message is what those bytes say. -/
def Obligations.OnlyFramesAreDelivered : Prop :=
  ∀ (s u t : State) (bs : List Byte) (b : Byte), s.st = .waitStart → s.input = rxBytes (bs ++ [b]) →
    runSteps bs.length s = .next u → runSteps (bs.length + 1) s = .next t → t.delivered ≠ u.delivered →
    ∃ (pre raw : List Byte) (d : Nibble) (e : Byte),
      (∃ v, runSteps (pre.length + 1) s = .next v ∧ v.st = .waitDestinationId) ∧
      bs ++ [b] = pre ++ [START, Codec.encNibble d] ++ raw.flatMap Codec.encByte
        ++ [e, Codec.crc8 CRC_INIT (d.setWidth 8 :: raw)] ∧
      (s.cfg.myId = 0 ∨ d = 0 ∨ d = s.cfg.myId) ∧ raw.length ≤ s.cfg.bufCap ∧
      ((e = END ∧ raw.length ≤ s.cfg.maxMessageSize ∧
          t.delivered = u.delivered ++ [⟨raw, raw.length, none⟩]) ∨
        (e = END_TAG ∧ ∃ (p : List Byte) (hi lo : Byte), raw = p ++ [hi, lo] ∧
          t.delivered = u.delivered ++ [⟨p, p.length, some (hi ++ lo)⟩]))

/-- 41_receiver.md R84: an addressed receiver passes the destination only for 0 or its own identity and every message
it emits came to one of these; a receiver with identity 0 passes all sixteen. -/
def Obligations.AddressFilter : Prop :=
  (∀ (i : Instr) (s t : State), exec i s = .next t → s.st = .waitDestinationId → t.st = .waitByteHigh →
    s.cfg.myId ≠ 0 → ∃ n, i = dataInstr n ∧ t.dest = n ∧ (n = 0 ∨ n = s.cfg.myId)) ∧
  (∀ s t : State, s.Inv → step s = .next t → t.delivered ≠ s.delivered → s.cfg.myId ≠ 0 →
    s.dest = 0 ∨ s.dest = s.cfg.myId) ∧
  (∀ (n : Nibble) (s : State), s.st = .waitDestinationId → s.cfg.myId = 0 →
    ∃ t, exec (dataInstr n) s = .next t ∧ t.st = .waitByteHigh ∧ t.dest = n)

/-- 41_receiver.md R82, 20_memory.md R31, 70_reset_and_hazards.md R114: in `WaitStart` and `WaitDestinationId` the
values of `dest`, `len`, `buf` and the running CRC, whatever an abandoned frame, a delivery or reset left there, have no
influence on anything that can be seen, on any later input. -/
def Obligations.StaleReceiverStateIsNeverObserved : Prop :=
  ∀ (s t : State) (k : Nat), (s.st = .waitStart ∨ s.st = .waitDestinationId) →
    t.st = s.st → t.cfg = s.cfg → t.input = s.input → t.delivered = s.delivered → t.tx = s.tx →
    ∃ s' t', runSteps k s = .next s' ∧ runSteps k t = .next t' ∧
      t'.st = s'.st ∧ t'.delivered = s'.delivered ∧ t'.tx = s'.tx ∧ t'.input = s'.input

/-- 41_receiver.md R82: after a START in a classified position the rest of the stream gives what it gives to a fresh
instance: the same positions and the same messages. -/
def Obligations.StartResynchronises : Prop :=
  ∀ (s : State) (bs : List Byte), s.st.classified = true →
    ∃ s' t', runSteps (bs.length + 1) { s with input := rxBytes (START :: bs) } = .next s' ∧
      runSteps (bs.length + 1) { State.resetWith s.cfg with input := rxBytes (START :: bs) } = .next t' ∧
      s'.st = t'.st ∧ s'.delivered = s.delivered ++ t'.delivered
end

