-- ==== Sys2Proof/Laws/Codec.lean ====
section
/-! SUPPORT. The laws of the codec and of the classifier. -/

namespace Sys2Proof

namespace Codec

@[simp] theorem crc8_nil (c : Byte) : crc8 c [] = c := rfl

theorem crc8_cons (c x : Byte) (p : List Byte) : crc8 c (x :: p) = crc8 (crcByte c x) p := rfl

@[simp] theorem decCheck_encNibble (n : Nibble) : decCheck (encNibble n) = some n := by revert n; decide

theorem encNibble_of_decCheck {w : Byte} {n : Nibble} (h : decCheck w = some n) : w = encNibble n := by
  revert n; revert w; decide

theorem encNibble_ne_start (n : Nibble) : encNibble n ≠ START := by revert n; decide
theorem encNibble_ne_end (n : Nibble) : encNibble n ≠ END := by revert n; decide
theorem encNibble_ne_endTag (n : Nibble) : encNibble n ≠ END_TAG := by revert n; decide

/-- The two halves of a byte, joined as the receiver joins them (41_receiver.md R66, R70). -/
theorem zext8_high_add_low (b : Byte) :
    (zext8 (highNibble b) <<< 4 : Byte) + zext8 (lowNibble b) = b := by revert b; decide

theorem lowNibble_shift (n : Nibble) : lowNibble (zext8 n <<< 4) = 0 := by revert n; decide

@[simp] theorem joinTag_halves (v : Tag) : joinTag (tagHigh v) (tagLow v) = v := by
  apply BitVec.eq_of_toNat_eq
  simp only [joinTag, tagHigh, tagLow, BitVec.toNat_append, BitVec.extractLsb'_toNat]
  have := v.isLt
  rw [← Nat.shiftLeft_add_eq_or_of_lt (by omega)]
  simp only [Nat.shiftRight_eq_div_pow, Nat.shiftLeft_eq]
  omega

end Codec

open Codec

@[simp] theorem byte_dataInstr (n : Nibble) : (dataInstr n).byte = encNibble n := by revert n; decide

@[simp] theorem nibble?_dataInstr (n : Nibble) : (dataInstr n).nibble? = some n := by revert n; decide

@[simp] theorem wellFormed_dataInstr (n : Nibble) : (dataInstr n).wellFormed = true := by revert n; decide

/-- An instruction with a nibble is the `DATA` row of that nibble. -/
theorem eq_dataInstr_of_nibble? {i : Instr} {n : Nibble} (h : i.nibble? = some n) : i = dataInstr n := by
  cases i <;> simp [Instr.nibble?] at h <;> subst h <;> rfl

@[simp] theorem classify_start : classify START = .start := rfl
@[simp] theorem classify_end : classify END = .endFrame := rfl
@[simp] theorem classify_endTag : classify END_TAG = .endTag := rfl

@[simp] theorem classify_encNibble (n : Nibble) : classify (encNibble n) = dataInstr n := by revert n; decide

/-- The byte of a class is the byte that was classified: no bit of it is dropped. -/
@[simp] theorem byte_classify (w : Byte) : (classify w).byte = w := by
  unfold classify
  split
  · rename_i h; exact h.symm
  · split
    · rename_i h; exact h.symm
    · split
      · rename_i h; exact h.symm
      · split
        · rename_i h; rw [byte_dataInstr]; exact (encNibble_of_decCheck h).symm
        · rfl

/-- A byte that is no control byte and no codeword is INVALID (30_encoding.md R36). -/
theorem classify_invalid {w : Byte} (h : invalidByte w = true) : classify w = .invalid w := by
  simp only [invalidByte, bne_iff_ne, ne_eq, Bool.and_eq_true, Option.isNone_iff_eq_none] at h
  obtain ⟨⟨⟨h1, h2⟩, h3⟩, h4⟩ := h
  simp [classify, h1, h2, h3, h4]

/-- The classifier's answer, once for all: one of the five classes of 30_encoding.md R36. -/
theorem classify_cases (w : Byte) :
    (w = START ∧ classify w = .start) ∨ (w = END ∧ classify w = .endFrame) ∨
    (w = END_TAG ∧ classify w = .endTag) ∨ (∃ n, w = encNibble n ∧ classify w = dataInstr n) ∨
    (invalidByte w = true ∧ classify w = .invalid w) := by
  by_cases h1 : w = START
  · subst h1; simp
  by_cases h2 : w = END
  · subst h2; simp
  by_cases h3 : w = END_TAG
  · subst h3; simp
  cases h4 : decCheck w with
  | some n =>
    have := encNibble_of_decCheck h4
    subst this
    exact .inr (.inr (.inr (.inl ⟨n, rfl, classify_encNibble n⟩)))
  | none =>
    have h : invalidByte w = true := by simp [invalidByte, h1, h2, h3, h4]
    exact .inr (.inr (.inr (.inr ⟨h, classify_invalid h⟩)))

end Sys2Proof
end

