-- ==== Sys2Proof/Laws/Memory.lean ====
section
/-! SUPPORT. The laws of the receive buffer: read after write, the canonical form, the range of its indices. -/

namespace Sys2Proof.Machine

@[simp] theorem Memory.read_nil (i : Nat) : Memory.read [] i = none := rfl

/-- A write gives its cell its value. -/
@[simp] theorem Memory.read_write_same (m : Memory) (i : Nat) (v : Byte) :
    Memory.read (Memory.write m i v) i = some v := by
  induction m with
  | nil => simp [Memory.write, Memory.read]
  | cons c m ih =>
    obtain ⟨a, u⟩ := c
    unfold Memory.write
    split
    · simp [Memory.read]
    · split
      · simp [Memory.read]
      · rename_i h; simp [Memory.read, h, ih]

/-- A write leaves every other cell alone. -/
theorem Memory.read_write_other (m : Memory) {i j : Nat} (v : Byte) (h : j ≠ i) :
    Memory.read (Memory.write m i v) j = Memory.read m j := by
  induction m with
  | nil => simp [Memory.write, Memory.read, Ne.symm h]
  | cons c m ih =>
    obtain ⟨a, u⟩ := c
    unfold Memory.write
    split
    · rw [Memory.read, if_neg (Ne.symm h)]
    · split
      · rename_i h2; subst h2; simp [Memory.read, Ne.symm h]
      · simp [Memory.read, ih]

/-- Both laws at once. -/
theorem Memory.read_write (m : Memory) (i j : Nat) (v : Byte) :
    Memory.read (Memory.write m i v) j = if j = i then some v else Memory.read m j := by
  split
  · rename_i h; subst h; simp
  · rename_i h; exact Memory.read_write_other m v h

/-- A cell of the written buffer is the new one or an old one. -/
theorem Memory.mem_write {m : Memory} {i : Nat} {v : Byte} {c : Host.Cell} (h : c ∈ Memory.write m i v) :
    c = (i, v) ∨ c ∈ m := by
  induction m with
  | nil => simpa [Memory.write] using h
  | cons d m ih =>
    obtain ⟨a, u⟩ := d
    unfold Memory.write at h
    split at h
    · simpa using h
    · split at h
      · simp only [List.mem_cons] at h ⊢; tauto
      · simp only [List.mem_cons] at h ⊢
        rcases h with h | h
        · exact .inr (.inl h)
        · rcases ih h with h | h
          · exact .inl h
          · exact .inr (.inr h)

/-- The canonical form, with its first index named. -/
theorem Memory.wf_cons (a : Nat) (u : Byte) (m : Memory) :
    Memory.wf ((a, u) :: m) = true ↔ (∀ c ∈ m, a < c.1) ∧ Memory.wf m = true := by
  induction m generalizing a u with
  | nil => simp [Memory.wf]
  | cons d m ih =>
    obtain ⟨b, w⟩ := d
    have hb := ih b w
    simp only [Memory.wf, Bool.and_eq_true, decide_eq_true_eq, List.mem_cons, forall_eq_or_imp]
    constructor
    · rintro ⟨h1, h2⟩
      exact ⟨⟨h1, fun c hc => lt_trans h1 ((hb.1 h2).1 c hc)⟩, h2⟩
    · rintro ⟨⟨h1, -⟩, h2⟩
      exact ⟨h1, h2⟩

/-- Every write keeps the canonical form. -/
theorem Memory.wf_write {m : Memory} (h : Memory.wf m = true) (i : Nat) (v : Byte) :
    Memory.wf (Memory.write m i v) = true := by
  induction m with
  | nil => rfl
  | cons d m ih =>
    obtain ⟨a, u⟩ := d
    have ⟨h1, h2⟩ := (Memory.wf_cons a u m).1 h
    unfold Memory.write
    split
    · rename_i hia
      refine (Memory.wf_cons i v _).2 ⟨?_, h⟩
      intro c hc
      rcases List.mem_cons.1 hc with rfl | hc
      · exact hia
      · exact lt_trans hia (h1 c hc)
    · split
      · rename_i h3; subst h3
        exact (Memory.wf_cons _ v _).2 ⟨h1, h2⟩
      · refine (Memory.wf_cons a u _).2 ⟨?_, ih h2⟩
        intro c hc
        rcases Memory.mem_write hc with rfl | hc
        · simp only; omega
        · exact h1 c hc

/-- A cell that reads as a value is listed. -/
theorem Memory.mem_of_read {m : Memory} {i : Nat} {v : Byte} (h : Memory.read m i = some v) : (i, v) ∈ m := by
  induction m with
  | nil => simp at h
  | cons d m ih =>
    obtain ⟨a, u⟩ := d
    unfold Memory.read at h
    split at h
    · rename_i ha; subst ha; simp at h; subst h; simp
    · exact List.mem_cons_of_mem _ (ih h)

/-- The buffer of a fresh instance is in its canonical form. -/
theorem State.resetWith_bufWf (c : Config) : Memory.wf (State.resetWith c).buf = true := rfl

end Sys2Proof.Machine
end

