-- ==== Sys2Proof/Laws/State.lean ====
section
/-! SUPPORT. What each named update of the state does to each field: no later proof unfolds a record update. -/

namespace Sys2Proof.Machine

variable (s : State)

/-! ### goTo -/
@[simp] theorem State.goTo_cfg (p : Position) : (s.goTo p).cfg = s.cfg := rfl
@[simp] theorem State.goTo_st (p : Position) : (s.goTo p).st = p := rfl
@[simp] theorem State.goTo_dest (p : Position) : (s.goTo p).dest = s.dest := rfl
@[simp] theorem State.goTo_len (p : Position) : (s.goTo p).len = s.len := rfl
@[simp] theorem State.goTo_buf (p : Position) : (s.goTo p).buf = s.buf := rfl
@[simp] theorem State.goTo_crcRun (p : Position) : (s.goTo p).crcRun = s.crcRun := rfl
@[simp] theorem State.goTo_input (p : Position) : (s.goTo p).input = s.input := rfl
@[simp] theorem State.goTo_delivered (p : Position) : (s.goTo p).delivered = s.delivered := rfl
@[simp] theorem State.goTo_tx (p : Position) : (s.goTo p).tx = s.tx := rfl

/-! ### beginFrame -/
@[simp] theorem State.beginFrame_cfg (n : Nibble) : (s.beginFrame n).cfg = s.cfg := rfl
@[simp] theorem State.beginFrame_st (n : Nibble) : (s.beginFrame n).st = s.st := rfl
@[simp] theorem State.beginFrame_dest (n : Nibble) : (s.beginFrame n).dest = n := rfl
@[simp] theorem State.beginFrame_len (n : Nibble) : (s.beginFrame n).len = 0 := rfl
@[simp] theorem State.beginFrame_buf (n : Nibble) : (s.beginFrame n).buf = s.buf := rfl
@[simp] theorem State.beginFrame_crcRun (n : Nibble) : (s.beginFrame n).crcRun = Codec.crc8 CRC_INIT [Codec.zext8 n] := rfl
@[simp] theorem State.beginFrame_input (n : Nibble) : (s.beginFrame n).input = s.input := rfl
@[simp] theorem State.beginFrame_delivered (n : Nibble) : (s.beginFrame n).delivered = s.delivered := rfl
@[simp] theorem State.beginFrame_tx (n : Nibble) : (s.beginFrame n).tx = s.tx := rfl

/-! ### countByte -/
@[simp] theorem State.countByte_cfg (b : Byte) : (s.countByte b).cfg = s.cfg := rfl
@[simp] theorem State.countByte_st (b : Byte) : (s.countByte b).st = s.st := rfl
@[simp] theorem State.countByte_dest (b : Byte) : (s.countByte b).dest = s.dest := rfl
@[simp] theorem State.countByte_len (b : Byte) : (s.countByte b).len = s.len + 1 := rfl
@[simp] theorem State.countByte_buf (b : Byte) : (s.countByte b).buf = s.buf := rfl
@[simp] theorem State.countByte_crcRun (b : Byte) : (s.countByte b).crcRun = Codec.crc8 s.crcRun [b] := rfl
@[simp] theorem State.countByte_input (b : Byte) : (s.countByte b).input = s.input := rfl
@[simp] theorem State.countByte_delivered (b : Byte) : (s.countByte b).delivered = s.delivered := rfl
@[simp] theorem State.countByte_tx (b : Byte) : (s.countByte b).tx = s.tx := rfl

/-! ### setLen -/
@[simp] theorem State.setLen_cfg (k : Nat) : (s.setLen k).cfg = s.cfg := rfl
@[simp] theorem State.setLen_st (k : Nat) : (s.setLen k).st = s.st := rfl
@[simp] theorem State.setLen_dest (k : Nat) : (s.setLen k).dest = s.dest := rfl
@[simp] theorem State.setLen_len (k : Nat) : (s.setLen k).len = k := rfl
@[simp] theorem State.setLen_buf (k : Nat) : (s.setLen k).buf = s.buf := rfl
@[simp] theorem State.setLen_crcRun (k : Nat) : (s.setLen k).crcRun = s.crcRun := rfl
@[simp] theorem State.setLen_input (k : Nat) : (s.setLen k).input = s.input := rfl
@[simp] theorem State.setLen_delivered (k : Nat) : (s.setLen k).delivered = s.delivered := rfl
@[simp] theorem State.setLen_tx (k : Nat) : (s.setLen k).tx = s.tx := rfl

/-! ### writeByte -/
@[simp] theorem State.writeByte_cfg (i : Nat) (v : Byte) : (s.writeByte i v).cfg = s.cfg := rfl
@[simp] theorem State.writeByte_st (i : Nat) (v : Byte) : (s.writeByte i v).st = s.st := rfl
@[simp] theorem State.writeByte_dest (i : Nat) (v : Byte) : (s.writeByte i v).dest = s.dest := rfl
@[simp] theorem State.writeByte_len (i : Nat) (v : Byte) : (s.writeByte i v).len = s.len := rfl
@[simp] theorem State.writeByte_buf (i : Nat) (v : Byte) : (s.writeByte i v).buf =
    if i < s.cfg.bufCap then Memory.write s.buf i v else s.buf := rfl
@[simp] theorem State.writeByte_crcRun (i : Nat) (v : Byte) : (s.writeByte i v).crcRun = s.crcRun := rfl
@[simp] theorem State.writeByte_input (i : Nat) (v : Byte) : (s.writeByte i v).input = s.input := rfl
@[simp] theorem State.writeByte_delivered (i : Nat) (v : Byte) : (s.writeByte i v).delivered = s.delivered := rfl
@[simp] theorem State.writeByte_tx (i : Nat) (v : Byte) : (s.writeByte i v).tx = s.tx := rfl

/-! ### emit -/
@[simp] theorem State.emit_cfg (m : Message) : (s.emit m).cfg = s.cfg := rfl
@[simp] theorem State.emit_st (m : Message) : (s.emit m).st = s.st := rfl
@[simp] theorem State.emit_dest (m : Message) : (s.emit m).dest = s.dest := rfl
@[simp] theorem State.emit_len (m : Message) : (s.emit m).len = s.len := rfl
@[simp] theorem State.emit_buf (m : Message) : (s.emit m).buf = s.buf := rfl
@[simp] theorem State.emit_crcRun (m : Message) : (s.emit m).crcRun = s.crcRun := rfl
@[simp] theorem State.emit_input (m : Message) : (s.emit m).input = s.input := rfl
@[simp] theorem State.emit_delivered (m : Message) : (s.emit m).delivered = s.delivered ++ [m] := rfl
@[simp] theorem State.emit_tx (m : Message) : (s.emit m).tx = s.tx := rfl

/-! ### write -/
@[simp] theorem State.write_cfg (w : Byte) : (s.write w).cfg = s.cfg := rfl
@[simp] theorem State.write_st (w : Byte) : (s.write w).st = s.st := rfl
@[simp] theorem State.write_dest (w : Byte) : (s.write w).dest = s.dest := rfl
@[simp] theorem State.write_len (w : Byte) : (s.write w).len = s.len := rfl
@[simp] theorem State.write_buf (w : Byte) : (s.write w).buf = s.buf := rfl
@[simp] theorem State.write_crcRun (w : Byte) : (s.write w).crcRun = s.crcRun := rfl
@[simp] theorem State.write_input (w : Byte) : (s.write w).input = s.input := rfl
@[simp] theorem State.write_delivered (w : Byte) : (s.write w).delivered = s.delivered := rfl
@[simp] theorem State.write_tx (w : Byte) : (s.write w).tx = s.tx ++ [w] := rfl

/-! ### pushInput -/
@[simp] theorem State.pushInput_cfg (e : Input) : (s.pushInput e).cfg = s.cfg := rfl
@[simp] theorem State.pushInput_st (e : Input) : (s.pushInput e).st = s.st := rfl
@[simp] theorem State.pushInput_dest (e : Input) : (s.pushInput e).dest = s.dest := rfl
@[simp] theorem State.pushInput_len (e : Input) : (s.pushInput e).len = s.len := rfl
@[simp] theorem State.pushInput_buf (e : Input) : (s.pushInput e).buf = s.buf := rfl
@[simp] theorem State.pushInput_crcRun (e : Input) : (s.pushInput e).crcRun = s.crcRun := rfl
@[simp] theorem State.pushInput_input (e : Input) : (s.pushInput e).input = e :: s.input := rfl
@[simp] theorem State.pushInput_delivered (e : Input) : (s.pushInput e).delivered = s.delivered := rfl
@[simp] theorem State.pushInput_tx (e : Input) : (s.pushInput e).tx = s.tx := rfl

/-! ### The sender's updates: only `tx` grows (10_state.md R20) -/
@[simp] theorem State.writeEncoded_cfg (b : Byte) : (s.writeEncoded b).cfg = s.cfg := rfl
@[simp] theorem State.writeEncoded_st (b : Byte) : (s.writeEncoded b).st = s.st := rfl
@[simp] theorem State.writeEncoded_dest (b : Byte) : (s.writeEncoded b).dest = s.dest := rfl
@[simp] theorem State.writeEncoded_len (b : Byte) : (s.writeEncoded b).len = s.len := rfl
@[simp] theorem State.writeEncoded_buf (b : Byte) : (s.writeEncoded b).buf = s.buf := rfl
@[simp] theorem State.writeEncoded_crcRun (b : Byte) : (s.writeEncoded b).crcRun = s.crcRun := rfl
@[simp] theorem State.writeEncoded_input (b : Byte) : (s.writeEncoded b).input = s.input := rfl
@[simp] theorem State.writeEncoded_delivered (b : Byte) : (s.writeEncoded b).delivered = s.delivered := rfl
@[simp] theorem State.writeEncoded_tx (b : Byte) : (s.writeEncoded b).tx = s.tx ++ Codec.encByte b := by
  simp [State.writeEncoded, Codec.encByte]

/-- The payload loop writes the encoded bytes in order and nothing else. -/
theorem State.writePayload_eq (p : List Byte) :
    s.writePayload p = { s with tx := s.tx ++ p.flatMap Codec.encByte } := by
  induction p generalizing s with
  | nil => simp [State.writePayload]
  | cons b p ih =>
    rw [State.writePayload, ih]
    simp [State.writeEncoded, State.write, Codec.encByte]

end Sys2Proof.Machine
end

