-- ==== Sys2Proof/Laws/Ops.lean ====
section
/-! SUPPORT. For each shared operation, what it can do, said once. -/

namespace Sys2Proof.Machine

/-! ### Buffer accesses -/

/-- A written cell reads as the byte written there. -/
theorem State.readByte_of_read {s : State} {i : Nat} {v : Byte} (hi : i < s.cfg.bufCap)
    (h : Memory.read s.buf i = some v) : s.readByte i = v := by
  simp [State.readByte, hi, h]

/-- A read depends on the capacity and on its own cell alone. -/
theorem State.readByte_congr {s t : State} {i : Nat} (hc : t.cfg = s.cfg)
    (hb : Memory.read t.buf i = Memory.read s.buf i) : t.readByte i = s.readByte i := by
  simp [State.readByte, hc, hb]

@[simp] theorem State.readSpan_length (s : State) (n : Nat) : (s.readSpan n).length = n := by
  simp [State.readSpan]

theorem State.readSpan_getElem? (s : State) {n j : Nat} (h : j < n) : (s.readSpan n)[j]? = some (s.readByte j) := by
  simp [State.readSpan, h]

/-- A span depends on the capacity and on its own cells alone. -/
theorem State.readSpan_congr {s t : State} {n : Nat} (hc : t.cfg = s.cfg)
    (hb : ∀ j, j < n → Memory.read t.buf j = Memory.read s.buf j) : t.readSpan n = s.readSpan n :=
  List.map_congr_left fun j hj => State.readByte_congr hc (hb j (List.mem_range.1 hj))

/-- A span whose cells hold the bytes `p`, all in range, reads as `p`. -/
theorem State.readSpan_of_reads {s : State} {n : Nat} {p : List Byte} (hl : p.length = n) (hn : n ≤ s.cfg.bufCap)
    (h : ∀ j, j < n → Memory.read s.buf j = p[j]?) : s.readSpan n = p := by
  apply List.ext_getElem?
  intro j
  by_cases hj : j < n
  · have hp : p[j]? = some p[j] := List.getElem?_eq_getElem (by omega)
    rw [State.readSpan_getElem? s hj, hp, State.readByte_of_read (by omega) ((h j hj).trans hp)]
  · rw [List.getElem?_eq_none (by simp; omega), List.getElem?_eq_none (by omega)]

/-- A span whose cells are all written and in range holds their bytes. -/
theorem State.readSpan_getElem?_of_written {s : State} {n j : Nat} (hn : n ≤ s.cfg.bufCap)
    (hw : (Memory.read s.buf j).isSome = true) (hj : j < n) : (s.readSpan n)[j]? = Memory.read s.buf j := by
  obtain ⟨v, hv⟩ := Option.isSome_iff_exists.1 hw
  rw [State.readSpan_getElem? s hj, State.readByte_of_read (by omega) hv, hv]

/-- The computed CRC in one call (41_receiver.md R55). -/
theorem State.rxCrc_eq (s : State) : s.rxCrc = Codec.crc8 CRC_INIT (Codec.zext8 s.dest :: s.readSpan s.len) := rfl

/-- The computed CRC depends on the destination and on the stored bytes alone. -/
theorem State.rxCrc_congr {s t : State} (hc : t.cfg = s.cfg) (hd : t.dest = s.dest) (hl : t.len = s.len)
    (hb : ∀ j, j < s.len → Memory.read t.buf j = Memory.read s.buf j) : t.rxCrc = s.rxCrc := by
  rw [State.rxCrc_eq, State.rxCrc_eq, hd, hl, State.readSpan_congr hc hb]

theorem State.readTag_congr {s t : State} {k : Nat} (hc : t.cfg = s.cfg)
    (h0 : Memory.read t.buf k = Memory.read s.buf k) (h1 : Memory.read t.buf (k + 1) = Memory.read s.buf (k + 1)) :
    t.readTag k = s.readTag k := by
  simp [State.readTag, State.readByte_congr hc h0, State.readByte_congr hc h1]

theorem State.readTag_of_reads {s : State} {k : Nat} {hi lo : Byte} (hk : k + 1 < s.cfg.bufCap)
    (h0 : Memory.read s.buf k = some hi) (h1 : Memory.read s.buf (k + 1) = some lo) :
    s.readTag k = Codec.joinTag hi lo := by
  rw [State.readTag, State.readByte_of_read (by omega) h0, State.readByte_of_read hk h1]

/-- What a cell reads as after a write, in the buffer's own terms. -/
theorem State.writeByte_read {s : State} {i : Nat} (hi : i < s.cfg.bufCap) (v : Byte) (j : Nat) :
    Memory.read (s.writeByte i v).buf j = if j = i then some v else Memory.read s.buf j := by
  rw [State.writeByte_buf, if_pos hi, Memory.read_write]

theorem State.writeByte_read_other (s : State) {i j : Nat} (v : Byte) (h : j ≠ i) :
    Memory.read (s.writeByte i v).buf j = Memory.read s.buf j := by
  rw [State.writeByte_buf]
  split
  · exact Memory.read_write_other _ _ h
  · rfl

/-! ### Tests -/

theorem addressed_iff {c : Config} {n : Nibble} :
    addressed c n = true ↔ c.myId = 0 ∨ n = 0 ∨ n = c.myId := by
  simp [addressed, BROADCAST, or_assoc]

@[simp] theorem State.hasRoom_iff {s : State} : s.hasRoom = true ↔ s.len < s.cfg.bufCap := by
  simp [State.hasRoom]

@[simp] theorem State.hasTag_iff {s : State} : s.hasTag = true ↔ 2 ≤ s.len := by simp [State.hasTag]

@[simp] theorem State.lengthOk_iff {s : State} : s.lengthOk = true ↔ s.len ≤ s.cfg.maxMessageSize := by
  simp [State.lengthOk]

@[simp] theorem State.mismatchRestarts_iff {s : State} {b : Byte} :
    s.mismatchRestarts b = true ↔ b = START ∧ s.cfg.crcMismatchStart = true := by
  simp [State.mismatchRestarts]

/-! ### The effects of the receive rules -/

theorem State.storeHigh_next {s : State} (n : Nibble) (h : s.len < s.cfg.bufCap) :
    s.storeHigh n = .next ((s.writeByte s.len (highHalf n)).goTo .waitByteLow) := by
  simp [State.storeHigh, State.pendingSlot, h]

theorem State.storeHigh_full {s : State} (n : Nibble) (h : ¬ s.len < s.cfg.bufCap) :
    s.storeHigh n = .next (s.goTo .waitStart) := by
  simp [State.storeHigh, h, State.drop]

theorem State.storeLow_eq (s : State) (n : Nibble) :
    s.storeLow n =
      .next (((s.writeByte s.len (addLow (s.readByte s.len) n)).countByte (addLow (s.readByte s.len) n)).goTo
        .waitByteHigh) := rfl

theorem State.deliver_eq (s : State) :
    s.deliver = .next ((s.emit ⟨s.readSpan s.len, s.len, none⟩).goTo .waitStart) := rfl

theorem State.deliverTagged_eq (s : State) :
    s.deliverTagged =
      .next (((s.setLen (s.len - 2)).emit
        ⟨s.readSpan (s.len - 2), s.len - 2, some (s.readTag (s.len - 2))⟩).goTo .waitStart) := rfl

/-- A byte that is not the awaited CRC ends in one of two positions and changes nothing else. -/
theorem State.crcMismatch_eq (s : State) (b : Byte) :
    s.crcMismatch b = .next (s.goTo
      (if b = START ∧ s.cfg.crcMismatchStart = true then .waitDestinationId else .waitStart)) := by
  unfold State.crcMismatch
  by_cases h : b = START ∧ s.cfg.crcMismatchStart = true
  · rw [if_pos (State.mismatchRestarts_iff.2 h), if_pos h]; rfl
  · rw [if_neg (mt State.mismatchRestarts_iff.1 h), if_neg h]; rfl

end Sys2Proof.Machine
end

