-- ==== Sys2Proof/Laws/Exec.lean ====
section
/-! SUPPORT. Running one instruction: what it does in each position, and everything a next state can be. -/

namespace Sys2Proof.Machine

/-- The sixteen `DATA` meanings are one operation of the nibble. -/
theorem exec_dataInstr (n : Nibble) (s : State) : exec (dataInstr n) s = s.dataByte n := by
  have h : ∀ n : Nibble, ∀ s : State, exec (dataInstr n) s = s.dataByte n := by
    intro n s
    obtain ⟨m, rfl⟩ : ∃ m : Fin 16, n = BitVec.ofFin m := ⟨n.toFin, rfl⟩
    fin_cases m <;> rfl
  exact h n s

/-- In `WaitStart` only START matters (41_receiver.md R56, R57). -/
theorem exec_waitStart {s : State} (h : s.st = .waitStart) (i : Instr) :
    exec i s = if i = .start then s.restart else s.discard := by
  cases i <;>
    simp [exec, execStart, execEndFrame, execEndTag, execInvalid, h, execData0, execData1, execData2, execData3,
      execData4, execData5, execData6, execData7, execData8, execData9, execDataA, execDataB, execDataC, execDataD,
      execDataE, execDataF, State.dataByte]

/-- In `WaitCrc` a byte counts by its value alone (41_receiver.md R53). -/
theorem exec_waitCrc {s : State} (h : s.st = .waitCrc) (i : Instr) : exec i s = s.takeCrc i.byte := by
  cases i <;>
    (simp only [exec, execStart, execEndFrame, execEndTag, execInvalid, h, execData0, execData1, execData2, execData3,
      execData4, execData5, execData6, execData7, execData8, execData9, execDataA, execDataB, execDataC, execDataD,
      execDataE, execDataF, State.dataByte]; rfl)

/-- In `WaitCrcWithTag` likewise (41_receiver.md R53). -/
theorem exec_waitCrcWithTag {s : State} (h : s.st = .waitCrcWithTag) (i : Instr) :
    exec i s = s.takeCrcTagged i.byte := by
  cases i <;>
    (simp only [exec, execStart, execEndFrame, execEndTag, execInvalid, h, execData0, execData1, execData2, execData3,
      execData4, execData5, execData6, execData7, execData8, execData9, execDataA, execDataB, execDataC, execDataD,
      execDataE, execDataF, State.dataByte]; rfl)

/-- Everything a next state of one instruction can be, one constructor per kind of effect (41_receiver.md R56 to
R79). -/
inductive Effect (i : Instr) (s : State) : State → Prop where
  /-- R57. -/
  | discarded (hst : s.st = .waitStart) (hi : i ≠ .start) : Effect i s s
  /-- R60, R61, R65, R67, R68, R71, R73, R74, R76. -/
  | dropped (hst : s.st ≠ .waitStart) : Effect i s (s.goTo .waitStart)
  /-- R56, R58, R62, R69, R79. -/
  | restarted (hi : i.byte = START) : Effect i s (s.goTo .waitDestinationId)
  /-- R59. -/
  | accepted (n : Nibble) (hst : s.st = .waitDestinationId) (hn : i = dataInstr n)
      (ha : addressed s.cfg n = true) : Effect i s ((s.beginFrame n).goTo .waitByteHigh)
  /-- R63. -/
  | ended (hst : s.st = .waitByteHigh) (hi : i = .endFrame) : Effect i s (s.goTo .waitCrc)
  /-- R64. -/
  | endedTagged (hst : s.st = .waitByteHigh) (hi : i = .endTag) (hl : 2 ≤ s.len) :
      Effect i s (s.goTo .waitCrcWithTag)
  /-- R66. -/
  | storedHigh (n : Nibble) (hst : s.st = .waitByteHigh) (hn : i = dataInstr n) (hr : s.len < s.cfg.bufCap) :
      Effect i s ((s.writeByte s.len (highHalf n)).goTo .waitByteLow)
  /-- R70. -/
  | storedLow (n : Nibble) (hst : s.st = .waitByteLow) (hn : i = dataInstr n) :
      Effect i s (((s.writeByte s.len (addLow (s.readByte s.len) n)).countByte (addLow (s.readByte s.len) n)).goTo
        .waitByteHigh)
  /-- R72 with R77. -/
  | delivered (hst : s.st = .waitCrc) (hc : s.rxCrc = i.byte) (hl : s.len ≤ s.cfg.maxMessageSize) :
      Effect i s ((s.emit ⟨s.readSpan s.len, s.len, none⟩).goTo .waitStart)
  /-- R75 with R78. -/
  | deliveredTagged (hst : s.st = .waitCrcWithTag) (hc : s.rxCrc = i.byte) :
      Effect i s (((s.setLen (s.len - 2)).emit
        ⟨s.readSpan (s.len - 2), s.len - 2, some (s.readTag (s.len - 2))⟩).goTo .waitStart)

theorem State.drop_inv {s t : State} {r : DropReason} (h : s.drop r = .next t) : t = s.goTo .waitStart := by
  simpa [State.drop] using h.symm

theorem State.restart_inv {s t : State} (h : s.restart = .next t) : t = s.goTo .waitDestinationId := by
  simpa [State.restart] using h.symm

theorem State.discard_inv {s t : State} (h : s.discard = .next t) : t = s := by
  simpa [State.discard] using h.symm

theorem State.crcMismatch_effect {i : Instr} {s t : State} (hst : s.st ≠ .waitStart)
    (h : s.crcMismatch i.byte = .next t) : Effect i s t := by
  rw [State.crcMismatch_eq] at h
  simp only [Host.Outcome.next.injEq] at h
  subst h
  split
  · rename_i hb; exact .restarted hb.1
  · exact .dropped hst

theorem State.dataByte_effect {n : Nibble} {s t : State} (h : s.dataByte n = .next t)
    (hc : s.st ≠ .waitCrc) (hg : s.st ≠ .waitCrcWithTag) : Effect (dataInstr n) s t := by
  unfold State.dataByte at h
  split at h <;> rename_i hst
  · rw [State.discard_inv h]
    refine .discarded hst fun e => ?_
    have hn := congrArg Instr.nibble? e
    rw [nibble?_dataInstr] at hn
    exact absurd hn (by simp [Instr.nibble?])
  · unfold State.takeDestination at h
    split at h
    · rename_i ha
      simp only [Host.Outcome.next.injEq] at h
      subst h
      exact .accepted n hst rfl ha
    · rw [State.drop_inv h]; exact .dropped (by simp [hst])
  · by_cases hr : s.len < s.cfg.bufCap
    · rw [State.storeHigh_next n hr] at h
      simp only [Host.Outcome.next.injEq] at h
      subst h
      exact .storedHigh n hst rfl hr
    · rw [State.storeHigh_full n hr] at h
      simp only [Host.Outcome.next.injEq] at h
      subst h
      exact .dropped (by simp [hst])
  · rw [State.storeLow_eq] at h
    simp only [Host.Outcome.next.injEq] at h
    subst h
    exact .storedLow n hst rfl
  · exact absurd hst hc
  · exact absurd hst hg

theorem State.takeCrc_effect {i : Instr} {s t : State} (hst : s.st = .waitCrc)
    (h : s.takeCrc i.byte = .next t) : Effect i s t := by
  unfold State.takeCrc at h
  split at h
  · rename_i hb
    split at h
    · rename_i hl
      rw [State.deliver_eq] at h
      simp only [Host.Outcome.next.injEq] at h
      subst h
      exact .delivered hst hb.symm (by simpa using hl)
    · rw [State.drop_inv h]; exact .dropped (by simp [hst])
  · exact State.crcMismatch_effect (by simp [hst]) h

theorem State.takeCrcTagged_effect {i : Instr} {s t : State} (hst : s.st = .waitCrcWithTag)
    (h : s.takeCrcTagged i.byte = .next t) : Effect i s t := by
  unfold State.takeCrcTagged at h
  split at h
  · rename_i hb
    rw [State.deliverTagged_eq] at h
    simp only [Host.Outcome.next.injEq] at h
    subst h
    exact .deliveredTagged hst hb.symm
  · exact State.crcMismatch_effect (by simp [hst]) h

theorem execStart_effect {s t : State} (h : execStart s = .next t) : Effect .start s t := by
  unfold execStart at h
  split at h <;> rename_i hst
  all_goals first
    | (rw [State.restart_inv h]; exact .restarted rfl)
    | exact State.takeCrc_effect (i := .start) hst h
    | exact State.takeCrcTagged_effect (i := .start) hst h

theorem execEndFrame_effect {s t : State} (h : execEndFrame s = .next t) : Effect .endFrame s t := by
  unfold execEndFrame at h
  split at h <;> rename_i hst
  · rw [State.discard_inv h]; exact .discarded hst (by simp)
  · rw [State.drop_inv h]; exact .dropped (by simp [hst])
  · simp only [State.endUntagged, Host.Outcome.next.injEq] at h
    subst h
    exact .ended hst rfl
  · rw [State.drop_inv h]; exact .dropped (by simp [hst])
  · exact State.takeCrc_effect (i := .endFrame) hst h
  · exact State.takeCrcTagged_effect (i := .endFrame) hst h

theorem execEndTag_effect {s t : State} (h : execEndTag s = .next t) : Effect .endTag s t := by
  unfold execEndTag at h
  split at h <;> rename_i hst
  · rw [State.discard_inv h]; exact .discarded hst (by simp)
  · rw [State.drop_inv h]; exact .dropped (by simp [hst])
  · unfold State.endTagged at h
    split at h
    · rename_i hl
      simp only [Host.Outcome.next.injEq] at h
      subst h
      exact .endedTagged hst rfl (by simpa using hl)
    · rw [State.drop_inv h]; exact .dropped (by simp [hst])
  · rw [State.drop_inv h]; exact .dropped (by simp [hst])
  · exact State.takeCrc_effect (i := .endTag) hst h
  · exact State.takeCrcTagged_effect (i := .endTag) hst h

theorem execInvalid_effect {w : Byte} {s t : State} (h : execInvalid w s = .next t) :
    Effect (.invalid w) s t := by
  unfold execInvalid at h
  split at h <;> rename_i hst
  · rw [State.discard_inv h]; exact .discarded hst (by simp)
  · rw [State.drop_inv h]; exact .dropped (by simp [hst])
  · rw [State.drop_inv h]; exact .dropped (by simp [hst])
  · rw [State.drop_inv h]; exact .dropped (by simp [hst])
  · exact State.takeCrc_effect (i := .invalid w) hst h
  · exact State.takeCrcTagged_effect (i := .invalid w) hst h

theorem exec_dataInstr_effect {n : Nibble} {s t : State} (h : exec (dataInstr n) s = .next t) :
    Effect (dataInstr n) s t := by
  by_cases hc : s.st = .waitCrc
  · rw [exec_waitCrc hc] at h; exact State.takeCrc_effect hc h
  · by_cases hg : s.st = .waitCrcWithTag
    · rw [exec_waitCrcWithTag hg] at h; exact State.takeCrcTagged_effect hg h
    · rw [exec_dataInstr] at h; exact State.dataByte_effect h hc hg

/-- The inversion of exec: a next state is one of these effects. -/
theorem exec_effect {i : Instr} {s t : State} (h : exec i s = .next t) : Effect i s t := by
  cases hn : i.nibble? with
  | some n =>
    obtain rfl := eq_dataInstr_of_nibble? hn
    exact exec_dataInstr_effect h
  | none =>
    cases i with
    | start => exact execStart_effect h
    | endFrame => exact execEndFrame_effect h
    | endTag => exact execEndTag_effect h
    | invalid w => exact execInvalid_effect h
    | _ => simp [Instr.nibble?] at hn

end Sys2Proof.Machine
end

