-- ==== Sys2Proof/Laws/Edge.lean ====
section
/-! SUPPORT. No instruction looks at the events to come or at the bytes sent: replacing both commutes with exec. -/

namespace Sys2Proof.Machine

/-- The state with other events to come and other bytes sent. -/
def State.withEdge (l : List Input) (x : List Byte) (s : State) : State := { s with input := l, tx := x }

/-- An answer with its next state, if any, changed by `f`. -/
def mapNext (f : State → State) : Answer → Answer
  | .next t => .next (f t)
  | .fault r => .fault r
  | .refused r => .refused r

@[simp] theorem mapNext_next (f : State → State) (t : State) : mapNext f (.next t) = .next (f t) := rfl
@[simp] theorem mapNext_fault (f : State → State) (r : Fault) : mapNext f (.fault r) = .fault r := rfl
@[simp] theorem mapNext_refused (f : State → State) (r : Refusal) : mapNext f (.refused r) = .refused r := rfl

theorem mapNext_eq_next {f : State → State} {a : Answer} {t : State} (h : mapNext f a = .next t) :
    ∃ u, a = .next u ∧ t = f u := by
  cases a with
  | next u => exact ⟨u, rfl, by simpa using h.symm⟩
  | fault r => simp at h
  | refused r => simp at h

variable (l : List Input) (x : List Byte) (s : State)

@[simp] theorem State.withEdge_cfg : (s.withEdge l x).cfg = s.cfg := rfl
@[simp] theorem State.withEdge_st : (s.withEdge l x).st = s.st := rfl
@[simp] theorem State.withEdge_dest : (s.withEdge l x).dest = s.dest := rfl
@[simp] theorem State.withEdge_len : (s.withEdge l x).len = s.len := rfl
@[simp] theorem State.withEdge_buf : (s.withEdge l x).buf = s.buf := rfl
@[simp] theorem State.withEdge_crcRun : (s.withEdge l x).crcRun = s.crcRun := rfl
@[simp] theorem State.withEdge_input : (s.withEdge l x).input = l := rfl
@[simp] theorem State.withEdge_delivered : (s.withEdge l x).delivered = s.delivered := rfl
@[simp] theorem State.withEdge_tx : (s.withEdge l x).tx = x := rfl

theorem State.withEdge_readSpan (n : Nat) : (s.withEdge l x).readSpan n = s.readSpan n :=
  State.readSpan_congr rfl fun _ _ => rfl

theorem State.withEdge_rxCrc : (s.withEdge l x).rxCrc = s.rxCrc :=
  State.rxCrc_congr rfl rfl rfl fun _ _ => rfl

theorem State.withEdge_crcMismatch (b : Byte) :
    (s.withEdge l x).crcMismatch b = mapNext (State.withEdge l x) (s.crcMismatch b) := by
  simp only [State.crcMismatch_eq]; rfl

theorem State.withEdge_deliver : (s.withEdge l x).deliver = mapNext (State.withEdge l x) s.deliver := rfl

theorem State.withEdge_deliverTagged :
    (s.withEdge l x).deliverTagged = mapNext (State.withEdge l x) s.deliverTagged := rfl

theorem State.withEdge_takeCrc (b : Byte) :
    (s.withEdge l x).takeCrc b = mapNext (State.withEdge l x) (s.takeCrc b) := by
  have hl : (s.withEdge l x).lengthOk = s.lengthOk := rfl
  unfold State.takeCrc
  rw [State.withEdge_rxCrc, hl, State.withEdge_deliver, State.withEdge_crcMismatch]
  split <;> (try split) <;> rfl

theorem State.withEdge_takeCrcTagged (b : Byte) :
    (s.withEdge l x).takeCrcTagged b = mapNext (State.withEdge l x) (s.takeCrcTagged b) := by
  unfold State.takeCrcTagged
  rw [State.withEdge_rxCrc, State.withEdge_deliverTagged, State.withEdge_crcMismatch]
  split <;> rfl

theorem State.withEdge_takeDestination (n : Nibble) :
    (s.withEdge l x).takeDestination n = mapNext (State.withEdge l x) (s.takeDestination n) := by
  unfold State.takeDestination
  rw [State.withEdge_cfg]
  split <;> rfl

theorem State.withEdge_endTagged : (s.withEdge l x).endTagged = mapNext (State.withEdge l x) s.endTagged := by
  have ht : (s.withEdge l x).hasTag = s.hasTag := rfl
  unfold State.endTagged
  rw [ht]
  split <;> rfl

theorem State.withEdge_storeHigh (n : Nibble) :
    (s.withEdge l x).storeHigh n = mapNext (State.withEdge l x) (s.storeHigh n) := by
  by_cases h : s.len < s.cfg.bufCap
  · rw [State.storeHigh_next n h, State.storeHigh_next (s := s.withEdge l x) n h]; rfl
  · rw [State.storeHigh_full n h, State.storeHigh_full (s := s.withEdge l x) n h]; rfl

theorem State.withEdge_storeLow (n : Nibble) :
    (s.withEdge l x).storeLow n = mapNext (State.withEdge l x) (s.storeLow n) := rfl

/-- Running an instruction commutes with replacing the events to come and the bytes sent (10_state.md R20). -/
theorem exec_withEdge (i : Instr) : exec i (s.withEdge l x) = mapNext (State.withEdge l x) (exec i s) := by
  cases hn : i.nibble? with
  | some n =>
    obtain rfl := eq_dataInstr_of_nibble? hn
    rw [exec_dataInstr, exec_dataInstr]
    unfold State.dataByte
    rw [State.withEdge_st]
    split
    · rfl
    · exact State.withEdge_takeDestination l x s n
    · exact State.withEdge_storeHigh l x s n
    · exact State.withEdge_storeLow l x s n
    · exact State.withEdge_takeCrc l x s _
    · exact State.withEdge_takeCrcTagged l x s _
  | none =>
    cases i <;> simp [Instr.nibble?] at hn <;>
      unfold exec <;> dsimp only <;>
      first
        | unfold execStart
        | unfold execEndFrame
        | unfold execEndTag
        | unfold execInvalid
    all_goals
      rw [State.withEdge_st]
      split
      all_goals first
        | rfl
        | exact State.withEdge_endTagged l x s
        | exact State.withEdge_takeCrc l x s _
        | exact State.withEdge_takeCrcTagged l x s _

end Sys2Proof.Machine
end

