-- ==== Sys2Proof/Laws/PerInstr.lean ====
section
/-! SUPPORT. Statements about every instruction as syntax, one lemma per constructor. -/

namespace Sys2Proof.Laws.Codeword

/-- The complement test of 40_codec.md R49 on the wire byte of a well-formed instruction tells whether it carries a
nibble, and which (30_encoding.md R36). -/
def Statement (i : Instr) : Prop := i.wellFormed = true → Codec.decCheck i.byte = i.nibble?

theorem start : Statement .start := by unfold Statement; decide
theorem endFrame : Statement .endFrame := by unfold Statement; decide
theorem endTag : Statement .endTag := by unfold Statement; decide
theorem data0 : Statement .data0 := by unfold Statement; decide
theorem data1 : Statement .data1 := by unfold Statement; decide
theorem data2 : Statement .data2 := by unfold Statement; decide
theorem data3 : Statement .data3 := by unfold Statement; decide
theorem data4 : Statement .data4 := by unfold Statement; decide
theorem data5 : Statement .data5 := by unfold Statement; decide
theorem data6 : Statement .data6 := by unfold Statement; decide
theorem data7 : Statement .data7 := by unfold Statement; decide
theorem data8 : Statement .data8 := by unfold Statement; decide
theorem data9 : Statement .data9 := by unfold Statement; decide
theorem dataA : Statement .dataA := by unfold Statement; decide
theorem dataB : Statement .dataB := by unfold Statement; decide
theorem dataC : Statement .dataC := by unfold Statement; decide
theorem dataD : Statement .dataD := by unfold Statement; decide
theorem dataE : Statement .dataE := by unfold Statement; decide
theorem dataF : Statement .dataF := by unfold Statement; decide
theorem invalid (w : Byte) : Statement (.invalid w) := by
  intro h
  have h' : invalidByte w = true := h
  simp only [invalidByte, Bool.and_eq_true, Option.isNone_iff_eq_none] at h'
  exact h'.2

end Sys2Proof.Laws.Codeword
end

