-- ==== Sys2Proof/Laws/Step.lean ====
section
/-! SUPPORT. One step by the kind of event, and runs of steps cut in two. -/

namespace Sys2Proof.Machine

theorem step_nil {s : State} (h : s.input = []) : step s = .next s := by
  simp [step, State.takeInput, h, State.idle]

theorem step_rxByte {s : State} {b : Byte} {rest : List Input} (h : s.input = .rxByte b :: rest) :
    step s = exec (classify b) { s with input := rest } := by
  simp [step, State.takeInput, h, State.handle]

theorem step_send {s : State} {r : SendRequest} {rest : List Input} (h : s.input = .send r :: rest) :
    step s = .next (State.send r { s with input := rest }) := by
  simp [step, State.takeInput, h, State.handle]

/-- Everything a next state of one step can be: nothing happened, a byte ran, or a `send` ran. -/
theorem step_cases {s t : State} (h : step s = .next t) :
    (s.input = [] ∧ t = s) ∨
    (∃ b rest, s.input = .rxByte b :: rest ∧ Effect (classify b) { s with input := rest } t) ∨
    (∃ r rest, s.input = .send r :: rest ∧ t = State.send r { s with input := rest }) := by
  cases hin : s.input with
  | nil => rw [step_nil hin] at h; exact .inl ⟨rfl, by simpa using h.symm⟩
  | cons e rest =>
    cases e with
    | rxByte b =>
      rw [step_rxByte hin] at h
      exact .inr (.inl ⟨b, rest, rfl, exec_effect h⟩)
    | send r =>
      rw [step_send hin] at h
      exact .inr (.inr ⟨r, rest, rfl, by simpa using h.symm⟩)

@[simp] theorem runSteps_zero (s : State) : runSteps 0 s = .next s := rfl

theorem runSteps_succ_of_next {s t : State} (h : step s = .next t) (k : Nat) :
    runSteps (k + 1) s = runSteps k t := by
  simp [runSteps, h]

/-- A run of `j + k` steps is a run of `j` steps and then one of `k`. -/
theorem runSteps_add {s t : State} {j : Nat} (h : runSteps j s = .next t) (k : Nat) :
    runSteps (j + k) s = runSteps k t := by
  induction j generalizing s with
  | zero =>
    simp only [runSteps_zero, Host.Outcome.next.injEq] at h
    subst h; simp
  | succ j ih =>
    cases hs : step s with
    | next u =>
      rw [runSteps_succ_of_next hs] at h
      rw [show j + 1 + k = (j + k) + 1 by omega, runSteps_succ_of_next hs]
      exact ih h
    | fault f => simp [runSteps, hs] at h
    | refused r => simp [runSteps, hs] at h

/-- With no event to come, any number of steps changes nothing. -/
theorem runSteps_idle {s : State} (h : s.input = []) (k : Nat) : runSteps k s = .next s := by
  induction k with
  | zero => rfl
  | succ k ih => rw [runSteps_succ_of_next (step_nil h), ih]

end Sys2Proof.Machine
end

