-- ==== Sys2Proof/Laws/Stream.lean ====
section
/-! SUPPORT. Streams of input bytes: a run over a stream is a fold of exec over its bytes. -/

namespace Sys2Proof.Machine

/-- The bytes of a stream run one after another, the events to come left alone. -/
def feed : List Byte → State → Answer
  | [], s => .next s
  | b :: bs, s =>
    match exec (classify b) s with
    | .next t => feed bs t
    | .fault f => .fault f
    | .refused r => .refused r

@[simp] theorem feed_nil (s : State) : feed [] s = .next s := rfl

theorem feed_cons_of_next {s t : State} {b : Byte} (h : exec (classify b) s = .next t) (bs : List Byte) :
    feed (b :: bs) s = feed bs t := by
  simp [feed, h]

theorem feed_append {s t : State} {as : List Byte} (h : feed as s = .next t) (bs : List Byte) :
    feed (as ++ bs) s = feed bs t := by
  induction as generalizing s with
  | nil =>
    simp only [feed_nil, Host.Outcome.next.injEq] at h
    subst h; rfl
  | cons a as ih =>
    cases he : exec (classify a) s with
    | next u =>
      rw [feed_cons_of_next he] at h
      rw [List.cons_append, feed_cons_of_next he]
      exact ih h
    | fault f => simp [feed, he] at h
    | refused r => simp [feed, he] at h

/-- An instruction leaves the events to come, the bytes sent and the parameters alone. -/
theorem exec_keeps {i : Instr} {s t : State} (h : exec i s = .next t) :
    t.input = s.input ∧ t.tx = s.tx ∧ t.cfg = s.cfg := by
  cases exec_effect h <;> exact ⟨rfl, rfl, rfl⟩

/-- So does a stream. -/
theorem feed_keeps {bs : List Byte} {s t : State} (h : feed bs s = .next t) :
    t.input = s.input ∧ t.tx = s.tx ∧ t.cfg = s.cfg := by
  induction bs generalizing s with
  | nil =>
    simp only [feed_nil, Host.Outcome.next.injEq] at h
    subst h; exact ⟨rfl, rfl, rfl⟩
  | cons b bs ih =>
    cases he : exec (classify b) s with
    | next u =>
      rw [feed_cons_of_next he] at h
      obtain ⟨h1, h2, h3⟩ := exec_keeps he
      obtain ⟨g1, g2, g3⟩ := ih h
      exact ⟨g1.trans h1, g2.trans h2, g3.trans h3⟩
    | fault f => simp [feed, he] at h
    | refused r => simp [feed, he] at h

/-- Streams commute with replacing the events to come and the bytes sent. -/
theorem feed_withEdge (l : List Input) (x : List Byte) (bs : List Byte) (s : State) :
    feed bs (s.withEdge l x) = mapNext (State.withEdge l x) (feed bs s) := by
  induction bs generalizing s with
  | nil => rfl
  | cons b bs ih =>
    unfold feed
    rw [exec_withEdge]
    cases exec (classify b) s with
    | next u => exact ih u
    | fault f => rfl
    | refused r => rfl

/-- A run over a stream's events is the fold over its bytes, with the later events left to come. -/
theorem runSteps_rxBytes {bs : List Byte} {s : State} {rest : List Input} (h : s.input = rxBytes bs ++ rest) :
    runSteps bs.length s = feed bs { s with input := rest } := by
  induction bs generalizing s with
  | nil =>
    have : s.input = rest := by simpa [rxBytes] using h
    subst this; rfl
  | cons b bs ih =>
    have h1 : s.input = .rxByte b :: (rxBytes bs ++ rest) := by simpa [rxBytes] using h
    have e : exec (classify b) { s with input := rest } =
        mapNext (State.withEdge rest s.tx) (exec (classify b) { s with input := rxBytes bs ++ rest }) :=
      exec_withEdge rest s.tx { s with input := rxBytes bs ++ rest } (classify b)
    rw [List.length_cons]
    unfold runSteps feed
    rw [step_rxByte h1, e]
    cases he : exec (classify b) { s with input := rxBytes bs ++ rest } with
    | next u =>
      obtain ⟨k1, k2, -⟩ := exec_keeps he
      simp only [mapNext_next]
      rw [ih k1]
      congr 1
      exact (congrArg (fun x => State.withEdge rest x u) k2 :)
    | fault f => rfl
    | refused r => rfl

/-- One more step of any machine's run. -/
theorem coreRun_succ (M : Host.Core) (k : Nat) (s : M.State) :
    M.run (k + 1) s =
      (match M.step s with
      | .next t => M.run k t
      | .fault f => .fault f
      | .refused r => .refused r) := rfl

/-- The host's run of the machine is the model's. -/
theorem coreRun_eq_runSteps (k : Nat) (s : State) : Host.Core.run Sys2Proof.core k s = runSteps k s := by
  induction k generalizing s with
  | zero => rfl
  | succ k ih =>
    refine (coreRun_succ Sys2Proof.core k s).trans ?_
    unfold runSteps
    cases h : step s with
    | next t =>
      have h' : Sys2Proof.core.step s = .next t := h
      rw [h']; exact ih t
    | fault f =>
      have h' : Sys2Proof.core.step s = .fault f := h
      rw [h']; rfl
    | refused r =>
      have h' : Sys2Proof.core.step s = .refused r := h
      rw [h']; rfl

end Sys2Proof.Machine
end

