-- ==== Sys2Proof/Tests/Slice0.lean ====
section
/-! SUPPORT. Tests of one step against the vectors of 95_test_vectors.md, and for every obligation with hypotheses a
witness that meets them. "By hand" marks a value worked out from the rule named, where no vector of the spec covers it. -/

namespace Sys2Proof.Tests

open Sys2Proof.Machine

-- The bit-serial CRC unfolds deeply.
set_option maxRecDepth 100000

/-! ### Helpers -/

/-- The parameters of the vectors of 95_test_vectors.md section 2.5. -/
def c4 : Config := { maxMessageSize := 4, myId := 2, crcMismatchStart := true }

/-- Cells from index `i` on. -/
def cellsFrom : Nat → List Byte → Memory
  | _, [] => []
  | i, v :: p => (i, v) :: cellsFrom (i + 1) p

/-- A receiver in position `p` with `dest`, `len` and the first bytes of `buf` given. -/
def rx (c : Config) (p : Position) (d : Nibble) (l : Nat) (b : List Byte) : State :=
  { State.resetWith c with st := p, dest := d, len := l, buf := cellsFrom 0 b }

/-- Whether an answer is a next state with the property `P`. -/
def runs (a : Answer) (P : State → Bool) : Bool :=
  match a with
  | .next t => P t
  | .fault _ => false
  | .refused _ => false

theorem of_runs {a : Answer} {P : State → Prop} [DecidablePred P] (h : runs a (fun t => decide (P t)) = true) :
    ∃ t, a = .next t ∧ P t := by
  cases a with
  | next t => exact ⟨t, rfl, by simpa [runs] using h⟩
  | fault f => simp [runs] at h
  | refused r => simp [runs] at h

/-- The invariants of 41_receiver.md R80 as a test that can be run. -/
def invCheck (s : State) : Bool :=
  Memory.wf s.buf && s.buf.all (fun c => decide (c.1 < s.cfg.bufCap)) &&
  (!s.st.receiving ||
    decide (s.len ≤ s.cfg.bufCap) && (List.range s.len).all (fun i => (Memory.read s.buf i).isSome) &&
    decide (s.cfg.myId = 0 ∨ s.dest = 0 ∨ s.dest = s.cfg.myId)) &&
  (decide (s.st ≠ .waitByteLow) ||
    decide (s.len < s.cfg.bufCap) && (Memory.read s.buf s.len).any (fun v => decide (Codec.lowNibble v = 0))) &&
  (decide (s.st ≠ .waitCrcWithTag) || decide (2 ≤ s.len))

theorem inv_of_check {s : State} (h : invCheck s = true) : s.Inv := by
  simp only [invCheck, Bool.and_eq_true, Bool.or_eq_true, Bool.not_eq_true', List.all_eq_true, decide_eq_true_eq,
    List.mem_range, Option.any_eq_true] at h
  obtain ⟨⟨⟨⟨h1, h2⟩, h3⟩, h4⟩, h5⟩ := h
  have r : s.st.receiving = true → _ := fun e => h3.resolve_left (by simp [e])
  have l : s.st = .waitByteLow → _ := fun e => h4.resolve_left (by simp [e])
  exact ⟨h1, h2, fun e => (r e).1.1, fun e => (r e).1.2, fun e => (r e).2, fun e => (l e).1,
    fun e => (l e).2, fun e => h5.resolve_left (by simp [e])⟩

def sFullCells : Memory := cellsFrom 0 [1, 2, 3, 4, 5, 6]

/-! ### WellFormed: one ill-formed term for each check -/

theorem test_wf_refuses_start : (Instr.invalid 0x0C).wellFormed = false := by decide
theorem test_wf_refuses_end : (Instr.invalid 0x03).wellFormed = false := by decide
theorem test_wf_refuses_endTag : (Instr.invalid 0x06).wellFormed = false := by decide
theorem test_wf_refuses_codeword : (Instr.invalid 0x4B).wellFormed = false := by decide
theorem test_wf_accepts_invalid : (Instr.invalid 0x4A).wellFormed = true := by decide

/-! ### Decoding: words written out bit by bit from the tables of 30_encoding.md R34, R35, R36 -/

theorem test_decode_control :
    classify 0b00001100 = .start ∧ classify 0b00000011 = .endFrame ∧ classify 0b00000110 = .endTag := by decide

theorem test_decode_data_low :
    classify 0b00001111 = .data0 ∧ classify 0b00011110 = .data1 ∧ classify 0b00101101 = .data2 ∧
    classify 0b00111100 = .data3 ∧ classify 0b01001011 = .data4 ∧ classify 0b01011010 = .data5 ∧
    classify 0b01101001 = .data6 ∧ classify 0b01111000 = .data7 := by decide

theorem test_decode_data_high :
    classify 0b10000111 = .data8 ∧ classify 0b10010110 = .data9 ∧ classify 0b10100101 = .dataA ∧
    classify 0b10110100 = .dataB ∧ classify 0b11000011 = .dataC ∧ classify 0b11010010 = .dataD ∧
    classify 0b11100001 = .dataE ∧ classify 0b11110000 = .dataF := by decide

/-- The bytes the vectors of 95_test_vectors.md use as INVALID. -/
theorem test_decode_invalid :
    classify 0b00000000 = .invalid 0x00 ∧ classify 0b11111111 = .invalid 0xFF ∧
    classify 0b00011111 = .invalid 0x1F ∧ classify 0b11101010 = .invalid 0xEA := by decide

/-- A two-byte stream: the second byte is left. -/
theorem test_decode_leaves_rest : decode [0x0C, 0x2D] = .ok (.start, [0x2D]) := by decide

/-- Bits above the eighth are none of the instruction's. -/
theorem test_table_word : decodeTableWord 8 0x06 = some .endTag ∧ decodeTableWord 8 0xF9 = some (.invalid 0xF9) := by
  decide

/-! ### One step of each instruction -/

/-- V-RX-69. -/
theorem test_start_in_byteLow :
    runs (exec .start (rx c4 .waitByteLow 2 0 [0x40])) (fun t => decide (t = rx c4 .waitDestinationId 2 0 [0x40])) = true := by
  decide

/-- V-RX-72c: the computed CRC is 0x0C, so the byte is no start. -/
theorem test_start_as_crc :
    runs (exec .start (rx c4 .waitCrc 2 1 [0x10]))
      (fun t => decide (t.st = .waitStart ∧ t.delivered = [⟨[0x10], 1, none⟩])) = true := by decide

/-- V-RX-63b. -/
theorem test_end_empty_payload :
    runs (exec .endFrame (rx c4 .waitByteHigh 0 0 [])) (fun t => decide (t.st = .waitCrc ∧ t.len = 0)) = true := by decide

/-- V-RX-72d: the computed CRC is 0x03. -/
theorem test_end_as_crc :
    runs (exec .endFrame (rx c4 .waitCrc 0 1 [0x2B]))
      (fun t => decide (t.st = .waitStart ∧ t.delivered = [⟨[0x2B], 1, none⟩])) = true := by decide

/-- V-RX-64b: two stored bytes are enough. -/
theorem test_endTag_two_bytes :
    runs (exec .endTag (rx { c4 with myId := 0 } .waitByteHigh 9 2 [0x00, 0x00]))
      (fun t => decide (t.st = .waitCrcWithTag ∧ t.len = 2)) = true := by decide

/-- V-RX-65: one is not. -/
theorem test_endTag_one_byte :
    runs (exec .endTag (rx c4 .waitByteHigh 0 1 [0x11])) (fun t => decide (t.st = .waitStart ∧ t.len = 1)) = true := by
  decide

/-- V-RX-59b: broadcast. -/
theorem test_data0_broadcast :
    runs (exec .data0 (rx c4 .waitDestinationId 5 4 []))
      (fun t => decide (t.st = .waitByteHigh ∧ t.dest = 0 ∧ t.len = 0)) = true := by decide

/-- V-RX-67: the buffer is full. -/
theorem test_data0_overflow :
    runs (exec .data0 (rx c4 .waitByteHigh 2 6 [1, 2, 3, 4, 5, 6]))
      (fun t => decide (t = rx c4 .waitStart 2 6 [1, 2, 3, 4, 5, 6])) = true := by decide

/-- V-RX-70a. -/
theorem test_data1_low :
    runs (exec .data1 (rx c4 .waitByteLow 2 0 [0x40]))
      (fun t => decide (t.st = .waitByteHigh ∧ t.len = 1 ∧ t.buf = [(0, 0x41)])) = true := by decide

/-- V-RX-59a. -/
theorem test_data2_destination :
    runs (exec .data2 (rx c4 .waitDestinationId 0 3 []))
      (fun t => decide (t.st = .waitByteHigh ∧ t.dest = 2 ∧ t.len = 0)) = true := by decide

/-- By hand, R66: the high nibble 3. -/
theorem test_data3_high :
    runs (exec .data3 (rx c4 .waitByteHigh 2 1 [0x41]))
      (fun t => decide (t.st = .waitByteLow ∧ t.len = 1 ∧ t.buf = [(0, 0x41), (1, 0x30)])) = true := by decide

/-- V-RX-66a. -/
theorem test_data4_high :
    runs (exec .data4 (rx c4 .waitByteHigh 2 0 []))
      (fun t => decide (t.st = .waitByteLow ∧ t.len = 0 ∧ t.buf = [(0, 0x40)])) = true := by decide

/-- V-RX-60: not addressed to this receiver. -/
theorem test_data5_foreign :
    runs (exec .data5 (rx c4 .waitDestinationId 2 3 []))
      (fun t => decide (t.st = .waitStart ∧ t.dest = 2 ∧ t.len = 3)) = true := by decide

/-- By hand, R70: 0x40 + 6. -/
theorem test_data6_low :
    runs (exec .data6 (rx c4 .waitByteLow 2 0 [0x40]))
      (fun t => decide (t.len = 1 ∧ t.buf = [(0, 0x46)])) = true := by decide

/-- By hand, R59 with the destination of V-TX-14. -/
theorem test_data7_destination :
    runs (exec .data7 (rx { c4 with myId := 7 } .waitDestinationId 0 0 []))
      (fun t => decide (t.st = .waitByteHigh ∧ t.dest = 7)) = true := by decide

/-- By hand, R66: the high nibble 8, the byte's top bit. -/
theorem test_data8_high :
    runs (exec .data8 (rx c4 .waitByteHigh 2 0 [])) (fun t => decide (t.buf = [(0, 0x80)])) = true := by decide

/-- V-RX-59c: identity 0 accepts every destination. -/
theorem test_data9_promiscuous :
    runs (exec .data9 (rx { c4 with myId := 0 } .waitDestinationId 0 0 []))
      (fun t => decide (t.st = .waitByteHigh ∧ t.dest = 9)) = true := by decide

/-- By hand, R66: the high nibble of A5 in V-TX-11, over a stale cell. -/
theorem test_dataA_high :
    runs (exec .dataA (rx c4 .waitByteHigh 2 2 [0x01, 0x02, 0xFF]))
      (fun t => decide (t.buf = [(0, 0x01), (1, 0x02), (2, 0xA0)])) = true := by decide

/-- By hand, R70: 0x20 + 0xB, the byte of V-TX-10. -/
theorem test_dataB_low :
    runs (exec .dataB (rx c4 .waitByteLow 0 0 [0x20]))
      (fun t => decide (t.st = .waitByteHigh ∧ t.len = 1 ∧ t.buf = [(0, 0x2B)])) = true := by decide

/-- By hand, R57: a stray codeword. -/
theorem test_dataC_discarded :
    runs (exec .dataC (rx c4 .waitStart 2 1 [0x40])) (fun t => decide (t = rx c4 .waitStart 2 1 [0x40])) = true := by decide

/-- By hand, R74: 0xD2 is not the computed CRC 0xEA of V-RX-72a. -/
theorem test_dataD_mismatch :
    runs (exec .dataD (rx c4 .waitCrc 2 2 [0x41, 0x42]))
      (fun t => decide (t = rx c4 .waitStart 2 2 [0x41, 0x42])) = true := by decide

/-- By hand, R70: 0xF0 + 0xE. -/
theorem test_dataE_low :
    runs (exec .dataE (rx c4 .waitByteLow 2 0 [0xF0])) (fun t => decide (t.buf = [(0, 0xFE)])) = true := by decide

/-- V-RX-66b: the last slot. -/
theorem test_dataF_last_slot :
    runs (exec .dataF (rx c4 .waitByteHigh 2 5 [1, 2, 3, 4, 5]))
      (fun t => decide (t.st = .waitByteLow ∧ Memory.read t.buf 5 = some 0xF0 ∧ t.len = 5)) = true := by decide

/-- V-RX-70b: the last slot completed. -/
theorem test_dataF_completes_last :
    runs (exec .dataF (rx c4 .waitByteLow 2 5 [1, 2, 3, 4, 5, 0xF0]))
      (fun t => decide (t.st = .waitByteHigh ∧ Memory.read t.buf 5 = some 0xFF ∧ t.len = 6)) = true := by decide

/-- V-RX-75a: the CRC byte is an INVALID byte; the tag is stripped, high byte first. -/
theorem test_invalid_crc_tagged :
    runs (exec (.invalid 0xF9) (rx { c4 with myId := 5 } .waitCrcWithTag 5 4 [0x01, 0xFF, 0xBE, 0xEF]))
      (fun t => decide (t.st = .waitStart ∧ t.len = 2 ∧ t.delivered = [⟨[0x01, 0xFF], 2, some 0xBEEF⟩])) = true := by
  decide

/-- V-RX-73: the right CRC of a payload that is too long. -/
theorem test_invalid_overlong :
    runs (exec (.invalid 0x57) (rx ⟨2, 1, true⟩ .waitCrc 1 3 [0x01, 0x02, 0x03]))
      (fun t => decide (t.st = .waitStart ∧ t.delivered = [])) = true := by decide

/-- The first byte supplied after reset is the next step's: a START, and an INVALID byte passed over (R56, R57). -/
theorem test_first_byte_after_reset :
    runs (step (State.reset.withFetchWord 8 0x0C)) (fun t => decide (t.st = .waitDestinationId ∧ t.input = [])) = true ∧
    runs (step (State.reset.withFetchWord 8 0xEA)) (fun t => decide (t.st = .waitStart ∧ t.input = [])) = true := by
  decide

/-- By hand, R95: states no run reaches have a successor. With nothing written the awaited CRC is a free value, and the
step goes on whether or not the byte is it; with a full buffer in WaitByteLow there is no cell to write. -/
theorem test_unreached_states_go_on :
    (∃ t, exec .data0 (rx c4 .waitCrc 2 1 []) = .next t) ∧
    (∃ t, exec .data0 (rx c4 .waitByteLow 2 6 [1, 2, 3, 4, 5, 6]) = .next t ∧ t.buf = sFullCells) :=
  ⟨by
    show ∃ t, (if Instr.data0.byte = (rx c4 .waitCrc 2 1 []).rxCrc then _ else _) = Host.Outcome.next t
    split <;> exact ⟨_, rfl⟩, ⟨_, rfl, rfl⟩⟩

/-! ### The sender and the codec -/

/-- V-TX-1. -/
theorem test_send_untagged :
    (State.send ⟨2, .bytes [0x41, 0x42], none⟩ (State.resetWith c4)).tx =
      [0x0C, 0x2D, 0x4B, 0x1E, 0x4B, 0x2D, 0x03, 0xEA] := by decide

/-- V-TX-3. -/
theorem test_send_tagged :
    (State.send ⟨5, .bytes [0x01, 0xFF], some 0xBEEF⟩ (State.resetWith c4)).tx =
      [0x0C, 0x5A, 0x0F, 0x1E, 0xF0, 0xF0, 0xB4, 0xE1, 0xE1, 0xF0, 0x06, 0xF9] := by decide

/-- V-TX-13: destinations outside 0 .. 15. -/
theorem test_send_coerces :
    (State.send ⟨16, .bytes [0xAA], none⟩ (State.resetWith c4)).tx = [0x0C, 0x0F, 0xA5, 0xA5, 0x03, 0xD1] ∧
    (State.send ⟨-1, .bytes [0xAA], none⟩ (State.resetWith c4)).tx = [0x0C, 0x0F, 0xA5, 0xA5, 0x03, 0xD1] := by decide

/-- V-CRC-11, V-CRC-12, V-CRC-18. -/
theorem test_crc_vectors :
    Codec.crc8 0x00 [0x41] = 0x18 ∧ Codec.crc8 0xBC [0x41] = 0x89 ∧ Codec.crc8 0xC4 [0xBE, 0xEF] = 0xF9 := by decide

/-! ### States the witnesses use -/

/-- Identity 2, no restart at a mismatching START (V-RX-79a, second case). -/
def cNoStart : Config := { c4 with crcMismatchStart := false }

def sWait : State := rx c4 .waitStart 0 0 []
def sDest : State := rx c4 .waitDestinationId 7 3 [0x11]
/-- V-RX-63a. -/
def sHigh : State := rx c4 .waitByteHigh 2 2 [0x41, 0x42]
/-- The buffer is full (V-RX-67). -/
def sFull : State := rx c4 .waitByteHigh 2 6 [1, 2, 3, 4, 5, 6]
/-- V-RX-70a. -/
def sLow : State := rx c4 .waitByteLow 2 0 [0x40]
/-- V-RX-70b. -/
def sLowLast : State := rx c4 .waitByteLow 2 5 [1, 2, 3, 4, 5, 0xF0]
/-- V-RX-72a: computed CRC 0xEA. -/
def sCrc : State := rx c4 .waitCrc 2 2 [0x41, 0x42]
/-- V-RX-72c: computed CRC 0x0C. -/
def sCrcStart : State := rx c4 .waitCrc 2 1 [0x10]
/-- V-RX-73: computed CRC 0x57, one byte too many. -/
def sCrcLong : State := rx ⟨2, 1, true⟩ .waitCrc 1 3 [0x01, 0x02, 0x03]
/-- V-RX-75a: computed CRC 0xF9. -/
def sTag : State := rx { c4 with myId := 5 } .waitCrcWithTag 5 4 [0x01, 0xFF, 0xBE, 0xEF]
/-- V-RX-75c: computed CRC 0x0C, the payload is the tag alone. -/
def sTagStart : State := rx c4 .waitCrcWithTag 0 2 [0x00, 0xAC]
/-- V-RX-75d: computed CRC 0xB9, the buffer is full. -/
def sTagFull : State := rx ⟨2, 1, true⟩ .waitCrcWithTag 1 4 [0x01, 0x02, 0xA5, 0x5A]

/-- With the events `l` to come. -/
def withEvents (s : State) (l : List Input) : State := { s with input := l }

theorem inv_examples :
    (∀ s ∈ [sWait, sDest, sHigh, sFull, sLow, sLowLast, sCrc, sCrcStart, sCrcLong, sTag, sTagStart, sTagFull], s.Inv) := by
  have h : ∀ s ∈ [sWait, sDest, sHigh, sFull, sLow, sLowLast, sCrc, sCrcStart, sCrcLong, sTag, sTagStart, sTagFull],
      invCheck s = true := by decide
  exact fun s hs => inv_of_check (h s hs)

theorem crc_examples :
    sCrc.rxCrc = 0xEA ∧ sCrcStart.rxCrc = 0x0C ∧ sCrcLong.rxCrc = 0x57 ∧ sTag.rxCrc = 0xF9 ∧
    sTagStart.rxCrc = 0x0C ∧ sTagFull.rxCrc = 0xB9 := by
  refine ⟨?_, ?_, ?_, ?_, ?_, ?_⟩ <;> rfl

/-! ### Witnesses: for each obligation with hypotheses, states and operands that meet them all, clause by clause -/

theorem inv_ex {s : State} (h : invCheck s = true) (l : List Input) : (withEvents s l).Inv :=
  let k := inv_of_check h
  ⟨k.1, k.2, k.3, k.4, k.5, k.6, k.7, k.8⟩

/-- One state in each of the six positions, `len` at its bounds among them; an access at the highest index; and a buffer
that differs in a cell the instruction does not use. -/
theorem witness_StepKeepsReceiverInvariants :
    (sWait.Inv ∧ sDest.Inv ∧ sFull.Inv ∧ sLowLast.Inv ∧ sCrc.Inv ∧ sTagFull.Inv) ∧
    (5 ∈ bufAccesses .dataF sLowLast ∧ sLowLast.cfg.bufCap = 6) ∧ 3 ∈ bufAccesses (.invalid 0xB9) sTagFull ∧
    (∀ a ∈ bufAccesses .data1 sLow, Memory.read [(0, 0x40), (3, 0x77)] a = Memory.read sLow.buf a) :=
  ⟨⟨inv_of_check (by decide), inv_of_check (by decide), inv_of_check (by decide), inv_of_check (by decide),
    inv_of_check (by decide), inv_of_check (by decide)⟩, by decide, by decide, by decide⟩

/-- A state no run reaches, `len = 1` in `WaitCrc` with nothing written: it has a successor too. And a drop. -/
theorem witness_EveryByteHasASuccessor :
    ¬ (rx c4 .waitCrc 2 1 []).Inv ∧ dropCause .endFrame sDest = some .structural :=
  ⟨fun h => absurd (h.bufWritten rfl 0 (by decide)) (by decide), rfl⟩

theorem witness_ParametersNeverChange :
    ∃ t, runSteps 2 (withEvents sWait [.rxByte 0x0C, .rxByte 0x2D]) = .next t ∧ t.st = .waitByteHigh :=
  of_runs (by decide)

/-- The running CRC of the destination 2 alone is 0xBC (V-CRC-10). -/
theorem witness_StepKeepsRunningCrc :
    (withEvents { sLow with crcRun := 0xBC } [.rxByte 0x1E]).Inv ∧
    (withEvents { sLow with crcRun := 0xBC } [.rxByte 0x1E]).CrcRunInv ∧
    ∃ t, step (withEvents { sLow with crcRun := 0xBC } [.rxByte 0x1E]) = .next t ∧ t.st = .waitByteHigh :=
  ⟨inv_ex (s := { sLow with crcRun := 0xBC }) (by decide) _, fun _ => rfl, of_runs (by decide)⟩

/-- A step that emits, and one that does not. -/
theorem witness_StepEmitsAtMostOneBoundedMessage :
    (withEvents sCrc [.rxByte 0xEA]).Inv ∧
    (∃ t, step (withEvents sCrc [.rxByte 0xEA]) = .next t ∧ t.delivered.length = 1) ∧
    (∃ t, step (withEvents sCrc [.rxByte 0xEB]) = .next t ∧ t.delivered = []) :=
  ⟨inv_ex (by decide) _, of_runs (by decide), of_runs (by decide)⟩

theorem witness_StepRunsDecodedInstruction :
    ((Instr.invalid 0x00).wellFormed = true ∧
      (withEvents sWait [.rxByte 0x00]).input = .rxByte (Instr.invalid 0x00).byte :: []) ∧
    (withEvents sWait [.send ⟨2, .bytes [], none⟩]).input = .send ⟨2, .bytes [], none⟩ :: [] ∧
    sWait.input = [] := by decide

theorem witness_DecodeEncodeAgree : (Instr.invalid 0xEA).wellFormed = true ∧ ([0xEA, 0x0C] : List Byte) ≠ [] := by decide

/-- Each of the four classified positions. -/
theorem witness_StartRestartsReconstruction :
    sWait.st.classified = true ∧ sDest.st.classified = true ∧ sFull.st.classified = true ∧
    sLow.st.classified = true := by decide

theorem witness_WaitStartIgnoresAllButStart : Instr.dataC ≠ .start ∧ sWait.st = .waitStart := by decide

/-- Each of the three ways to be addressed, alone. -/
theorem witness_AddressedDestinationAccepted :
    (sDest.st = .waitDestinationId ∧ (2 : Nibble) = sDest.cfg.myId) ∧
    (sDest.cfg.myId ≠ 0 ∧ ((0 : Nibble) = 0)) ∧
    ((rx { c4 with myId := 0 } .waitDestinationId 0 0 []).st = .waitDestinationId ∧
      (rx { c4 with myId := 0 } .waitDestinationId 0 0 []).cfg.myId = 0 ∧ (15 : Nibble) ≠ 0) := by decide

/-- The identities next to 2. -/
theorem witness_ForeignDestinationDropped :
    sDest.st = .waitDestinationId ∧ sDest.cfg.myId ≠ 0 ∧ (1 : Nibble) ≠ 0 ∧ (1 : Nibble) ≠ sDest.cfg.myId ∧
    (3 : Nibble) ≠ sDest.cfg.myId := by decide

theorem witness_NonCodewordDropsFrame :
    (Instr.endTag = .endFrame ∨ Instr.endTag = .endTag ∨ ∃ w, Instr.endTag = .invalid w) ∧
    (Instr.invalid 0x1F = .endFrame ∨ Instr.invalid 0x1F = .endTag ∨ ∃ w, Instr.invalid 0x1F = .invalid w) ∧
    sDest.st = .waitDestinationId ∧ sLow.st = .waitByteLow :=
  ⟨.inr (.inl rfl), .inr (.inr ⟨0x1F, rfl⟩), rfl, rfl⟩

/-- `len = 0` and `len = BUF_CAP`. -/
theorem witness_EndAwaitsCrc :
    (rx c4 .waitByteHigh 0 0 []).st = .waitByteHigh ∧ sFull.st = .waitByteHigh ∧ sFull.len = sFull.cfg.bufCap := by decide

/-- `len = 2` and `len = 1`. -/
theorem witness_EndTagNeedsTwoBytes :
    (sHigh.st = .waitByteHigh ∧ sHigh.len = 2) ∧
    ((rx c4 .waitByteHigh 0 1 [0x11]).st = .waitByteHigh ∧ (rx c4 .waitByteHigh 0 1 [0x11]).len < 2) := by decide

/-- `len = 0` and `len = BUF_CAP - 1`. -/
theorem witness_HighNibbleGoesToPendingSlot :
    ((rx c4 .waitByteHigh 2 0 []).st = .waitByteHigh ∧
      (rx c4 .waitByteHigh 2 0 []).len < (rx c4 .waitByteHigh 2 0 []).cfg.bufCap) ∧
    ((rx c4 .waitByteHigh 2 5 [1, 2, 3, 4, 5]).st = .waitByteHigh ∧
      (rx c4 .waitByteHigh 2 5 [1, 2, 3, 4, 5]).len + 1 = (rx c4 .waitByteHigh 2 5 [1, 2, 3, 4, 5]).cfg.bufCap) := by decide

theorem witness_FullBufferDropsFrame : sFull.st = .waitByteHigh ∧ sFull.len = sFull.cfg.bufCap := by decide

theorem witness_InvalidByteDropsPayload : sHigh.st = .waitByteHigh := by decide

theorem witness_LowNibbleCompletesByte :
    (sLow.Inv ∧ sLow.st = .waitByteLow) ∧ (sLowLast.Inv ∧ sLowLast.st = .waitByteLow) :=
  ⟨⟨inv_of_check (by decide), rfl⟩, ⟨inv_of_check (by decide), rfl⟩⟩

theorem witness_RunningCrcIsSeededAndAdvanced :
    (sDest.st = .waitDestinationId ∧ (2 : Nibble) = sDest.cfg.myId) ∧ (sLow.Inv ∧ sLow.st = .waitByteLow) :=
  ⟨by decide, inv_of_check (by decide), rfl⟩

theorem witness_ComputedCrcCoversStoredBytes :
    sCrc.Inv ∧ sCrc.st.receiving = true :=
  ⟨inv_of_check (by decide), rfl⟩

/-- START as the CRC, and a payload of exactly `MAX_MESSAGE_SIZE` bytes. -/
theorem witness_MatchingCrcDeliversMessage :
    (sCrcStart.Inv ∧ sCrcStart.st = .waitCrc ∧ sCrcStart.rxCrc = Instr.start.byte ∧
      sCrcStart.len ≤ sCrcStart.cfg.maxMessageSize) ∧
    ((rx { c4 with myId := 5 } .waitCrc 5 4 [0x01, 0xFF, 0xBE, 0xEF]).Inv ∧
      (rx { c4 with myId := 5 } .waitCrc 5 4 [0x01, 0xFF, 0xBE, 0xEF]).rxCrc = (Instr.invalid 0xF9).byte ∧
      (rx { c4 with myId := 5 } .waitCrc 5 4 [0x01, 0xFF, 0xBE, 0xEF]).len = 4) :=
  ⟨⟨inv_of_check (by decide), rfl, rfl, by decide⟩, ⟨inv_of_check (by decide), rfl, rfl⟩⟩

theorem witness_OverlongVerifiedFrameDropped :
    sCrcLong.st = .waitCrc ∧ sCrcLong.rxCrc = (Instr.invalid 0x57).byte ∧
    sCrcLong.cfg.maxMessageSize < sCrcLong.len := ⟨rfl, rfl, by decide⟩

/-- V-RX-74a, V-RX-76, and V-RX-79a with the parameter false. -/
theorem witness_CrcMismatchDropsFrame :
    (sCrc.st = .waitCrc ∧ Instr.endFrame.byte ≠ sCrc.rxCrc ∧ Instr.endFrame.byte ≠ START) ∧
    (sTag.st = .waitCrcWithTag ∧ Instr.endTag.byte ≠ sTag.rxCrc ∧ Instr.endTag.byte ≠ START) ∧
    (Instr.start.byte ≠ (rx cNoStart .waitCrc 2 2 [0x41, 0x42]).rxCrc ∧ cNoStart.crcMismatchStart = false) := by decide

/-- `len = 2`, START as the CRC; and `len = BUF_CAP`. -/
theorem witness_MatchingCrcDeliversTaggedMessage :
    (sTagStart.Inv ∧ sTagStart.st = .waitCrcWithTag ∧ sTagStart.rxCrc = Instr.start.byte) ∧
    (sTagFull.Inv ∧ sTagFull.st = .waitCrcWithTag ∧ sTagFull.rxCrc = (Instr.invalid 0xB9).byte ∧
      sTagFull.len = sTagFull.cfg.bufCap) :=
  ⟨⟨inv_of_check (by decide), rfl, rfl⟩, ⟨inv_of_check (by decide), rfl, rfl, rfl⟩⟩

/-- Both positions, both values of the parameter. -/
theorem witness_StartThatIsNotTheCrc :
    (sCrc.st = .waitCrc ∧ sCrc.rxCrc ≠ START ∧ sCrc.cfg.crcMismatchStart = true) ∧
    (sTag.st = .waitCrcWithTag ∧ sTag.rxCrc ≠ START) ∧
    ((rx cNoStart .waitCrc 2 2 [0x41, 0x42]).rxCrc ≠ START ∧ cNoStart.crcMismatchStart = false) := by decide

/-- All six causes. -/
theorem witness_DropChangesPositionOnly :
    dropCause .endFrame sDest = some .structural ∧ dropCause .data5 sDest = some .notAddressed ∧
    dropCause .endFrame sCrc = some .crcMismatch ∧ dropCause .data0 sFull = some .overflow ∧
    dropCause .endTag (rx c4 .waitByteHigh 0 1 [0x11]) = some .malformedTag ∧
    dropCause (.invalid 0x57) sCrcLong = some .lengthExceeded := by decide

/-- A drop and a delivery. -/
theorem witness_WaitStartOnlyByDropOrDelivery :
    (sCrc.st ≠ .waitStart ∧ (∃ t, exec .endFrame sCrc = .next t ∧ t.st = .waitStart)) ∧
    (∃ t, exec (.invalid 0xEA) sCrc = .next t ∧ t.st = .waitStart ∧ t.delivered.length = 1) :=
  ⟨⟨by decide, of_runs (by decide)⟩, of_runs (by decide)⟩

/-- V-RX-57. -/
theorem witness_OnlyStartEndsWaiting :
    sWait.st = .waitStart ∧ START ∉ ([0x03, 0x06, 0x4B, 0x2D, 0x00, 0xFF, 0xEA] : List Byte) ∧
    (withEvents sWait (rxBytes [0x03, 0x06, 0x4B, 0x2D, 0x00, 0xFF, 0xEA])).input =
      rxBytes [0x03, 0x06, 0x4B, 0x2D, 0x00, 0xFF, 0xEA] ++ [] := by decide

/-- With and without a matching CRC in the tagged position, and outside the CRC positions. -/
theorem witness_FrameOfControlAndInvalidBytes :
    (Instr.endFrame.nibble? = none ∧ (∃ t, exec .endFrame sHigh = .next t ∧ t.st = .waitCrc)) ∧
    (∃ t, exec (.invalid 0xF9) sTag = .next t ∧ t.len = 2) ∧
    (∃ t, exec .endTag sTag = .next t ∧ t.len = 4) :=
  ⟨⟨rfl, of_runs (by decide)⟩, of_runs (by decide), of_runs (by decide)⟩

/-- As a destination, a high nibble, a low nibble and a CRC byte. -/
theorem witness_FrameOfDataBytes :
    (∃ t, exec (dataInstr 2) sDest = .next t ∧ t.dest = 2) ∧
    (∃ t, exec (dataInstr 4) sHigh = .next t ∧ t.st = .waitByteLow) ∧
    (∃ t, exec (dataInstr 1) sLow = .next t ∧ t.len = 1) ∧
    (∃ t, exec (dataInstr 13) sCrc = .next t ∧ t.delivered = []) :=
  ⟨of_runs (by decide), of_runs (by decide), of_runs (by decide), of_runs (by decide)⟩

theorem witness_CrcIsLinearWithZeroResidue :
    ([0x12, 0x34] : List Byte).length = ([0x0F, 0xF0] : List Byte).length := by decide

theorem witness_CrcDetectsAnyOneByteChange : (0x41 : Byte) ≠ 0x51 := by decide

theorem witness_CodewordsKeepTheirDistance : (0x0 : Nibble) ≠ 0xF := by decide

/-- The highest bit, in each of the three positions. -/
theorem witness_FlippedBitInCodewordIsRejected :
    7 < 8 ∧ sDest.st = .waitDestinationId ∧ sHigh.st = .waitByteHigh ∧ sLow.st = .waitByteLow := by decide

theorem witness_SendWritesTheFrame :
    (withEvents sWait [.send ⟨5, .bytes [0x01, 0xFF], some 0xBEEF⟩]).input =
      .send ⟨5, .bytes [0x01, 0xFF], some 0xBEEF⟩ :: [] := by decide

/-- 0 and 15 inside, -1 and 16 outside. -/
theorem witness_DestinationCoercedToBroadcast :
    ((0 : Int) ≤ 0 ∧ (0 : Int) ≤ 15) ∧ ((0 : Int) ≤ 15 ∧ (15 : Int) ≤ 15) ∧ (-1 : Int) < 0 ∧ (15 : Int) < 16 := by decide

theorem witness_GuardedSendWritesNothing : 0 < 1 := by decide

/-- The first and the last byte between START and the end byte of V-TX-2 and V-TX-5. -/
theorem witness_SentFrameShape :
    (0 < 1 ∧ 1 < (frame 0 [] none).length - 2 ∧ (frame 0 [] none)[1]? = some 0x0F) ∧
    (0 < 5 ∧ 5 < (frame 3 [] (some 0x1234)).length - 2 ∧ (frame 3 [] (some 0x1234))[5]? = some 0x4B) := by decide

theorem witness_SendAndReceiveCommute : sLow.Inv ∧ sCrc.Inv :=
  ⟨inv_of_check (by decide), inv_of_check (by decide)⟩

/-- A pass of one byte and an idle poll. -/
theorem witness_PassBoundariesDoNotMatter :
    ∃ t, runSteps (([START] : List Byte).length + 1) { sWait with input := rxBytes [START] } = .next t ∧
      t.st = .waitDestinationId := of_runs (by decide)

/-- A payload of exactly `MAX_MESSAGE_SIZE` bytes from a payload position; and an empty one while a CRC is awaited. -/
theorem witness_AddressedFrameRoundTrips :
    ((withEvents sLow (rxBytes (frame 2 [1, 2, 3, 4] (some 0xA55A)))).Inv ∧
      (withEvents sLow (rxBytes (frame 2 [1, 2, 3, 4] (some 0xA55A)))).input =
        rxBytes (frame 2 [1, 2, 3, 4] (some 0xA55A)) ++ [] ∧
      ([1, 2, 3, 4] : List Byte).length ≤ sLow.cfg.maxMessageSize ∧ (2 : Nibble) = sLow.cfg.myId ∧
      sLow.st.classified = true) ∧
    ((withEvents sCrc (rxBytes (frame 0 [] none))).Inv ∧ sCrc.cfg.crcMismatchStart = true ∧
      (withEvents sCrc (rxBytes (frame 0 [] none))).rxCrc = 0xEA ∧ (0xEA : Byte) ≠ START) :=
  ⟨⟨inv_ex (by decide) _, by decide, by decide, by decide, by decide⟩,
    ⟨inv_ex (by decide) _, rfl, rfl, by decide⟩⟩

theorem witness_ForeignFrameGivesNoMessage :
    (withEvents sHigh (rxBytes (frame 3 [0x41] none))).Inv ∧
    (withEvents sHigh (rxBytes (frame 3 [0x41] none))).input = rxBytes (frame 3 [0x41] none) ++ [] ∧
    sHigh.st.classified = true ∧ sHigh.cfg.myId ≠ 0 ∧ (3 : Nibble) ≠ 0 ∧ (3 : Nibble) ≠ sHigh.cfg.myId :=
  ⟨inv_ex (by decide) _, by decide, by decide, by decide, by decide, by decide⟩

/-- START as the awaited CRC, in both positions, and START as a mismatch with the parameter false. -/
theorem witness_StartTakenAsCrcLosesFrame :
    ((withEvents sCrcStart (rxBytes (frame 2 [0x41] none))).Inv ∧ sCrcStart.st = .waitCrc ∧
      (withEvents sCrcStart (rxBytes (frame 2 [0x41] none))).input = rxBytes (frame 2 [0x41] none) ++ [] ∧
      (withEvents sCrcStart (rxBytes (frame 2 [0x41] none))).rxCrc = START) ∧
    (sTagStart.Inv ∧ sTagStart.st = .waitCrcWithTag ∧ sTagStart.rxCrc = START) ∧
    ((rx cNoStart .waitCrc 2 2 [0x41, 0x42]).Inv ∧ cNoStart.crcMismatchStart = false ∧
      (rx cNoStart .waitCrc 2 2 [0x41, 0x42]).rxCrc = 0xEA ∧ (0xEA : Byte) ≠ START) :=
  ⟨⟨inv_ex (by decide) _, rfl, by decide, rfl⟩, ⟨inv_of_check (by decide), rfl, rfl⟩,
    ⟨inv_of_check (by decide), rfl, rfl, by decide⟩⟩

/-- The first and the last byte that can be damaged in V-TX-1, in its highest and lowest bit. -/
theorem witness_CorruptedCodewordGivesNoMessage :
    (sWait.Inv ∧ sWait.st.classified = true ∧ 1 ≤ 1 ∧ 1 < (frame 2 [0x41, 0x42] none).length - 2 ∧ 7 < 8 ∧
      (frame 2 [0x41, 0x42] none)[1]? = some 0x2D ∧
      (withEvents sWait (rxBytes ((frame 2 [0x41, 0x42] none).set 1 (0x2D ^^^ BitVec.twoPow 8 7)))).input =
        rxBytes ((frame 2 [0x41, 0x42] none).set 1 (0x2D ^^^ BitVec.twoPow 8 7)) ++ []) ∧
    (5 < (frame 2 [0x41, 0x42] none).length - 2 ∧ (frame 2 [0x41, 0x42] none)[5]? = some 0x2D) :=
  ⟨⟨inv_of_check (by decide), by decide⟩, by decide⟩

/-- One byte too many, tagged and not. -/
theorem witness_OverlongFrameGivesNoMessage :
    ((withEvents sWait (rxBytes (frame 2 [1, 2, 3, 4, 5] none))).Inv ∧
      (withEvents sWait (rxBytes (frame 2 [1, 2, 3, 4, 5] none))).input = rxBytes (frame 2 [1, 2, 3, 4, 5] none) ++ [] ∧
      sWait.st.classified = true ∧ sWait.cfg.maxMessageSize < ([1, 2, 3, 4, 5] : List Byte).length) ∧
    (withEvents sWait (rxBytes (frame 2 [1, 2, 3, 4, 5] (some 7)))).Inv :=
  ⟨⟨inv_ex (by decide) _, by decide, by decide, by decide⟩, inv_ex (by decide) _⟩

/-- V-TX-2, whose last byte emits. -/
theorem witness_OnlyFramesAreDelivered :
    (withEvents sWait (rxBytes ([0x0C, 0x0F, 0x03] ++ [0x00]))).Inv ∧ sWait.st = .waitStart ∧
    (∃ u, runSteps 3 (withEvents sWait (rxBytes ([0x0C, 0x0F, 0x03] ++ [0x00]))) = .next u ∧ u.delivered = []) ∧
    (∃ t, runSteps (3 + 1) (withEvents sWait (rxBytes ([0x0C, 0x0F, 0x03] ++ [0x00]))) = .next t ∧
      t.delivered = [⟨[], 0, none⟩]) :=
  ⟨inv_ex (by decide) _, rfl, of_runs (by decide), of_runs (by decide)⟩

/-- One state for each of the three clauses. -/
theorem witness_AddressFilter :
    ((∃ t, exec .data2 sDest = .next t ∧ t.st = .waitByteHigh) ∧ sDest.st = .waitDestinationId ∧ sDest.cfg.myId ≠ 0) ∧
    ((withEvents sCrc [.rxByte 0xEA]).Inv ∧
      (∃ t, step (withEvents sCrc [.rxByte 0xEA]) = .next t ∧ t.delivered ≠ sCrc.delivered) ∧ sCrc.cfg.myId ≠ 0) ∧
    ((rx { c4 with myId := 0 } .waitDestinationId 0 0 []).st = .waitDestinationId ∧
      (rx { c4 with myId := 0 } .waitDestinationId 0 0 []).cfg.myId = 0) :=
  ⟨⟨of_runs (by decide), rfl, by decide⟩, ⟨inv_ex (by decide) _, of_runs (by decide), by decide⟩, ⟨rfl, rfl⟩⟩

/-- Two receivers that differ in every stale register, in `WaitDestinationId` and in `WaitStart`. -/
theorem witness_StaleReceiverStateIsNeverObserved :
    (sDest.Inv ∧ (rx c4 .waitDestinationId 1 0 []).Inv ∧ sDest.st = .waitDestinationId ∧
      (rx c4 .waitDestinationId 1 0 []).st = sDest.st ∧ (rx c4 .waitDestinationId 1 0 []).cfg = sDest.cfg ∧
      (rx c4 .waitDestinationId 1 0 []) ≠ sDest) ∧
    (sWait.Inv ∧ (rx c4 .waitStart 9 3 [0xFF]).Inv ∧ (rx c4 .waitStart 9 3 [0xFF]).st = sWait.st) :=
  ⟨⟨inv_of_check (by decide), inv_of_check (by decide), rfl, rfl, rfl, by decide⟩,
    ⟨inv_of_check (by decide), inv_of_check (by decide), rfl⟩⟩

theorem witness_StartResynchronises : sLow.Inv ∧ sLow.st.classified = true := ⟨inv_of_check (by decide), rfl⟩

end Sys2Proof.Tests
end

section
/-! The classes of the wire bytes (30_encoding.md R36): each class as a condition on the byte, and how many bytes it
holds. -/

namespace Sys2Proof

open Codec

/-- Classifying loses nothing, so an answer fixes the byte that gave it. -/
theorem eq_byte_of_classify_eq {w : Byte} {i : Instr} (h : classify w = i) : w = i.byte := by
  rw [← h, byte_classify]

theorem classify_eq_start_iff (w : Byte) : classify w = .start ↔ w = START :=
  ⟨eq_byte_of_classify_eq, fun h => h ▸ classify_start⟩

theorem classify_eq_endFrame_iff (w : Byte) : classify w = .endFrame ↔ w = END :=
  ⟨eq_byte_of_classify_eq, fun h => h ▸ classify_end⟩

theorem classify_eq_endTag_iff (w : Byte) : classify w = .endTag ↔ w = END_TAG :=
  ⟨eq_byte_of_classify_eq, fun h => h ▸ classify_endTag⟩

/-- A byte decodes to `n` exactly when `n` is its high nibble and the complement of its low one (40_codec.md R49). -/
theorem decCheck_eq_some_iff (w : Byte) (n : Nibble) :
    decCheck w = some n ↔ highNibble w = n ∧ n = lowNibble w ^^^ NIBBLE_MASK := by
  unfold decCheck
  split
  case isTrue h => simp only [Option.some.injEq, ← h]; exact ⟨fun e => ⟨e, e.symm⟩, And.left⟩
  case isFalse h => exact ⟨nofun, fun ⟨e, c⟩ => absurd (e.trans c) h⟩

theorem decCheck_eq_none_iff (w : Byte) :
    decCheck w = none ↔ highNibble w ≠ lowNibble w ^^^ NIBBLE_MASK := by
  simp [decCheck]

theorem classify_eq_dataInstr_iff (w : Byte) (n : Nibble) :
    classify w = dataInstr n ↔ decCheck w = some n := by
  constructor
  · intro h
    rw [eq_byte_of_classify_eq h, byte_dataInstr, decCheck_encNibble]
  · intro h
    rw [encNibble_of_decCheck h, classify_encNibble]

/-- The classifier only answers terms that stand for a byte. -/
@[simp] theorem wellFormed_classify (w : Byte) : (classify w).wellFormed = true := by
  rcases classify_cases w with ⟨-, h⟩ | ⟨-, h⟩ | ⟨-, h⟩ | ⟨n, -, h⟩ | ⟨hw, h⟩
  case inr.inr.inr.inl => rw [h, wellFormed_dataInstr]
  case inr.inr.inr.inr => rw [h]; exact hw
  all_goals rw [h]; rfl

theorem classify_eq_invalid_iff (w : Byte) : classify w = .invalid w ↔ invalidByte w = true := by
  refine ⟨fun h => ?_, classify_invalid⟩
  have wf := wellFormed_classify w
  rwa [h] at wf

theorem invalidByte_iff (w : Byte) :
    invalidByte w = true ↔
      w ≠ START ∧ w ≠ END ∧ w ≠ END_TAG ∧ highNibble w ≠ lowNibble w ^^^ NIBBLE_MASK := by
  simp [invalidByte, decCheck_eq_none_iff, and_assoc]

/-- Of the 256 byte values, 16 are codewords. -/
theorem count_codewords :
    ((List.range 256).filter fun k => (classify (BitVec.ofNat 8 k)).nibble?.isSome).length = 16 := by decide

/-- Of the 256 byte values, 19 have a meaning: the codewords and the three control bytes. -/
theorem count_valid : ((List.range 256).filter fun k => !invalidByte (BitVec.ofNat 8 k)).length = 19 := by decide

/-- The other 237 are INVALID. -/
theorem count_invalid :
    ((List.range 256).filter fun k => classify (BitVec.ofNat 8 k) = .invalid (BitVec.ofNat 8 k)).length = 237 := by
  simp only [classify_eq_invalid_iff, Bool.decide_eq_true]
  have parts := (List.range 256).length_eq_length_filter_add fun k => invalidByte (BitVec.ofNat 8 k)
  rw [List.length_range, count_valid] at parts
  omega

/-- Settles O11: one condition on the byte for each class, and the two counts. -/
theorem classOfEveryByte : Obligations.ClassOfEveryByte := by
  refine ⟨fun w => ⟨classify_eq_start_iff w, classify_eq_endFrame_iff w, classify_eq_endTag_iff w, fun n => ?_, ?_⟩,
    count_codewords, count_invalid⟩
  · exact (classify_eq_dataInstr_iff w n).trans (decCheck_eq_some_iff w n)
  · exact (classify_eq_invalid_iff w).trans (invalidByte_iff w)

end Sys2Proof
end

section
/-! The distances between the bytes that have a meaning (30_encoding.md R43): any two differ in at least 2 bits, so one
changed bit of such a byte is always seen. -/

namespace Sys2Proof

open Codec

/-- In how many bits two bytes differ. -/
def bitsApart (a b : Byte) : Nat := ((List.range 8).filter fun k => (a ^^^ b).getLsbD k).length

@[simp] theorem bitsApart_self (a : Byte) : bitsApart a a = 0 := by
  rw [bitsApart, BitVec.xor_self]; rfl

theorem bitsApart_comm (a b : Byte) : bitsApart a b = bitsApart b a := by
  rw [bitsApart, bitsApart, BitVec.xor_comm]

/-- Changing one bit moves a byte by 1. -/
theorem bitsApart_flip (a : Byte) {k : Nat} (h : k < 8) : bitsApart a (a ^^^ BitVec.twoPow 8 k) = 1 := by
  rw [bitsApart, ← BitVec.xor_assoc, BitVec.xor_self, BitVec.zero_xor]
  revert k
  decide

/-- R43 (a): where two nibbles differ in a bit, their codewords differ in it and in its check bit. -/
theorem two_le_bitsApart_codewords {n m : Nibble} (h : n ≠ m) : 2 ≤ bitsApart (encNibble n) (encNibble m) := by
  revert n m; decide

/-- The three control bytes of 30_encoding.md R35. -/
def controlBytes : List Byte := [START, END, END_TAG]

/-- R43 (b): a codeword has four bits set, a control byte two. -/
theorem two_le_bitsApart_control (n : Nibble) : ∀ c ∈ controlBytes, 2 ≤ bitsApart (encNibble n) c := by
  revert n; decide

/-- R43 (e): the control bytes among themselves. -/
theorem two_le_bitsApart_controls : ∀ a ∈ controlBytes, ∀ b ∈ controlBytes, a ≠ b → 2 ≤ bitsApart a b := by decide

/-- A byte with a meaning is a control byte or a codeword (R36). -/
theorem control_or_codeword {w : Byte} (h : invalidByte w = false) : w ∈ controlBytes ∨ ∃ n, w = encNibble n := by
  rcases classify_cases w with ⟨rfl, -⟩ | ⟨rfl, -⟩ | ⟨rfl, -⟩ | ⟨n, hw, -⟩ | ⟨hw, -⟩
  case inr.inr.inr.inl => exact .inr ⟨n, hw⟩
  case inr.inr.inr.inr => exact absurd hw (by simp [h])
  all_goals exact .inl (by decide)

/-- Any two distinct bytes with a meaning differ in at least 2 bits. -/
theorem two_le_bitsApart {a b : Byte} (ha : invalidByte a = false) (hb : invalidByte b = false) (hab : a ≠ b) :
    2 ≤ bitsApart a b := by
  rcases control_or_codeword ha with ha | ⟨n, rfl⟩ <;> rcases control_or_codeword hb with hb | ⟨m, rfl⟩
  · exact two_le_bitsApart_controls a ha b hb hab
  · rw [bitsApart_comm]
    exact two_le_bitsApart_control m a ha
  · exact two_le_bitsApart_control n b hb
  · exact two_le_bitsApart_codewords (fun h => hab (h ▸ rfl))

/-- R43 (c): one changed bit of a byte with a meaning gives a byte without one, which would otherwise be at distance 1
from the first. -/
theorem invalidByte_flip {w : Byte} (hw : invalidByte w = false) {k : Nat} (hk : k < 8) :
    invalidByte (w ^^^ BitVec.twoPow 8 k) = true := by
  have one := bitsApart_flip w hk
  by_contra valid
  have moved : w ≠ w ^^^ BitVec.twoPow 8 k := fun h => by simp [← h] at one
  have two := two_le_bitsApart hw (eq_false_of_ne_true valid) moved
  omega

theorem classify_flip {w : Byte} (hw : invalidByte w = false) {k : Nat} (hk : k < 8) :
    classify (w ^^^ BitVec.twoPow 8 k) = .invalid (w ^^^ BitVec.twoPow 8 k) :=
  classify_invalid (invalidByte_flip hw hk)

@[simp] theorem invalidByte_encNibble (n : Nibble) : invalidByte (encNibble n) = false := by
  simp [invalidByte]

/-- Settles O43: the distances of the parts, and the spec's examples of two changed bits. -/
theorem codewordsKeepTheirDistance : Obligations.CodewordsKeepTheirDistance := by
  refine ⟨fun n m => two_le_bitsApart_codewords, rfl, fun n => ?_,
    fun n k => ⟨_, classify_flip (invalidByte_encNibble n) k.isLt⟩, ⟨rfl, rfl⟩, rfl,
    fun k => ⟨_, classify_flip (w := START) rfl k.isLt⟩, rfl, rfl, rfl⟩
  have far := two_le_bitsApart_control n
  exact ⟨far START (by decide), far END (by decide), far END_TAG (by decide)⟩

end Sys2Proof
end

section
/-! PROOFS. The chaining of the CRC over disjoint spans (40_codec.md R45). -/

namespace Sys2Proof

/-- R45: the register is the only value `crc8` carries, so a sequence may be cut anywhere. -/
theorem Codec.crc8_append (c : Byte) (p q : List Byte) : crc8 c (p ++ q) = crc8 (crc8 c p) q :=
  List.foldl_append

/-- Settles O36: the law of `crc8` over an append, read from right to left. -/
theorem crcChainsOverSpans : Obligations.CrcChainsOverSpans :=
  fun s a b => (Codec.crc8_append s a b).symm

end Sys2Proof
end

section
/-! What an instruction does in each frame position (41_receiver.md R53), as the shared operation it runs. -/

namespace Sys2Proof

/-- The instruction's class, once for all (30_encoding.md R36): the sixteen `DATA` rows are one case. -/
theorem Instr.class_cases (i : Instr) :
    i = .start ∨ i = .endFrame ∨ i = .endTag ∨ (∃ n, i = dataInstr n) ∨ ∃ w, i = .invalid w := by
  cases hn : i.nibble? with
  | some n => exact .inr (.inr (.inr (.inl ⟨n, eq_dataInstr_of_nibble? hn⟩)))
  | none => cases i <;> simp_all [Instr.nibble?]

namespace Machine

variable {s : State}

/-! ### The positions in which a byte is classified -/

theorem exec_start_of_classified (h : s.st.classified = true) : exec .start s = s.restart := by
  cases hst : s.st <;> simp_all [exec, execStart, Position.classified]

theorem exec_data_waitDestinationId (h : s.st = .waitDestinationId) (n : Nibble) :
    exec (dataInstr n) s = s.takeDestination n := by
  simp [exec_dataInstr, State.dataByte, h]

theorem exec_data_waitByteHigh (h : s.st = .waitByteHigh) (n : Nibble) : exec (dataInstr n) s = s.storeHigh n := by
  simp [exec_dataInstr, State.dataByte, h]

theorem exec_data_waitByteLow (h : s.st = .waitByteLow) (n : Nibble) : exec (dataInstr n) s = s.storeLow n := by
  simp [exec_dataInstr, State.dataByte, h]

/-- R61, R71: where only a codeword or START goes on, END, END_TAG and INVALID drop the frame. -/
theorem exec_nonCodeword (h : s.st = .waitDestinationId ∨ s.st = .waitByteLow) {i : Instr}
    (hi : i = .endFrame ∨ i = .endTag ∨ ∃ w, i = .invalid w) : exec i s = s.drop .structural := by
  rcases hi with rfl | rfl | ⟨w, rfl⟩ <;> rcases h with h | h <;>
    simp [exec, execEndFrame, execEndTag, execInvalid, h]

theorem exec_end_waitByteHigh (h : s.st = .waitByteHigh) : exec .endFrame s = s.endUntagged := by
  simp [exec, execEndFrame, h]

theorem exec_endTag_waitByteHigh (h : s.st = .waitByteHigh) : exec .endTag s = s.endTagged := by
  simp [exec, execEndTag, h]

theorem exec_invalid_waitByteHigh (h : s.st = .waitByteHigh) (w : Byte) :
    exec (.invalid w) s = s.drop .structural := by
  simp [exec, execInvalid, h]

/-! ### The branches of the shared operations -/

theorem State.takeDestination_accepted {n : Nibble} (h : addressed s.cfg n = true) :
    s.takeDestination n = .next ((s.beginFrame n).goTo .waitByteHigh) := if_pos h

theorem State.takeDestination_foreign {n : Nibble} (h : ¬ addressed s.cfg n = true) :
    s.takeDestination n = s.drop .notAddressed := if_neg h

theorem State.endTagged_next (h : 2 ≤ s.len) : s.endTagged = .next (s.goTo .waitCrcWithTag) :=
  if_pos (State.hasTag_iff.2 h)

theorem State.endTagged_malformed (h : ¬ 2 ≤ s.len) : s.endTagged = s.drop .malformedTag :=
  if_neg (mt State.hasTag_iff.1 h)

/-- R72, R77: the awaited CRC, within the limit. -/
theorem exec_waitCrc_deliver (h : s.st = .waitCrc) {i : Instr} (hc : i.byte = s.rxCrc)
    (hl : s.len ≤ s.cfg.maxMessageSize) : exec i s = s.deliver := by
  rw [exec_waitCrc h, State.takeCrc, if_pos hc, if_pos (State.lengthOk_iff.2 hl)]

/-- R73: the awaited CRC, above the limit. -/
theorem exec_waitCrc_overlong (h : s.st = .waitCrc) {i : Instr} (hc : i.byte = s.rxCrc)
    (hl : ¬ s.len ≤ s.cfg.maxMessageSize) : exec i s = s.drop .lengthExceeded := by
  rw [exec_waitCrc h, State.takeCrc, if_pos hc, if_neg (mt State.lengthOk_iff.1 hl)]

/-- R75, R78: the awaited CRC of a tagged frame. -/
theorem exec_waitCrcWithTag_deliver (h : s.st = .waitCrcWithTag) {i : Instr} (hc : i.byte = s.rxCrc) :
    exec i s = s.deliverTagged := by
  rw [exec_waitCrcWithTag h, State.takeCrcTagged, if_pos hc]

/-- R74, R76, R79: the two CRC positions treat another byte alike. -/
theorem exec_crcMismatch (h : s.st = .waitCrc ∨ s.st = .waitCrcWithTag) {i : Instr} (hc : i.byte ≠ s.rxCrc) :
    exec i s = s.crcMismatch i.byte := by
  rcases h with h | h
  · rw [exec_waitCrc h, State.takeCrc, if_neg hc]
  · rw [exec_waitCrcWithTag h, State.takeCrcTagged, if_neg hc]

end Machine

end Sys2Proof
end

section
/-! The receive rules that need no invariant, position by position (41_receiver.md R56 to R79). -/

namespace Sys2Proof.Machine

/-- Settles O13: START restarts in each classified position. -/
theorem startRestartsReconstruction : Obligations.StartRestartsReconstruction :=
  fun _ h => exec_start_of_classified h

/-- Settles O14: in `WaitStart` exec is a restart for START and a discard for the rest. -/
theorem waitStartIgnoresAllButStart : Obligations.WaitStartIgnoresAllButStart :=
  fun i _ hi h => (exec_waitStart h i).trans (if_neg hi)

/-- Settles O15: the destination passes the address filter. -/
theorem addressedDestinationAccepted : Obligations.AddressedDestinationAccepted := by
  intro n s h ha
  rw [exec_data_waitDestinationId h, State.takeDestination_accepted (addressed_iff.2 ha)]
  exact ⟨_, rfl, rfl⟩

/-- Settles O16: the destination does not pass the address filter. -/
theorem foreignDestinationDropped : Obligations.ForeignDestinationDropped := by
  intro n s h hid hn hown
  have ha : ¬ addressed s.cfg n = true := mt addressed_iff.1 fun h => h.elim hid (·.elim hn hown)
  rw [exec_data_waitDestinationId h, State.takeDestination_foreign ha]
  rfl

/-- Settles O17: the structural drop of a byte that is no codeword. -/
theorem nonCodewordDropsFrame : Obligations.NonCodewordDropsFrame :=
  fun _ _ hi h => exec_nonCodeword h hi

/-- Settles O18: END makes no test of the length. -/
theorem endAwaitsCrc : Obligations.EndAwaitsCrc :=
  fun _ h => exec_end_waitByteHigh h

/-- Settles O19: the two branches of the tag framing test. -/
theorem endTagNeedsTwoBytes : Obligations.EndTagNeedsTwoBytes := by
  intro s h
  rw [exec_endTag_waitByteHigh h]
  exact ⟨State.endTagged_next, fun hl => State.endTagged_malformed (Nat.not_le.2 hl)⟩

/-- A nibble shifted into the high half does not overflow. -/
theorem highHalf_toNat (n : Nibble) : (highHalf n).toNat = n.toNat * 16 := by revert n; decide

/-- Settles O20: one cell is written, at the pending slot. -/
theorem highNibbleGoesToPendingSlot : Obligations.HighNibbleGoesToPendingSlot := by
  intro n s h room
  rw [exec_data_waitByteHigh h, State.storeHigh_next n room]
  refine ⟨_, highHalf n, rfl, ?_, ?_, highHalf_toNat n, fun a ha => ?_⟩
  · rfl
  · simp [State.pendingSlot, room]
  · exact State.writeByte_read_other s _ ha

/-- Settles O21: no room is left at `len = BUF_CAP`. -/
theorem fullBufferDropsFrame : Obligations.FullBufferDropsFrame := by
  intro n s h full
  rw [exec_data_waitByteHigh h, State.storeHigh_full n (by omega)]
  rfl

/-- Settles O22: the structural drop at a byte boundary. -/
theorem invalidByteDropsPayload : Obligations.InvalidByteDropsPayload :=
  fun w _ h => exec_invalid_waitByteHigh h w

/-- Settles O27: the CRC matches and the length test fails. -/
theorem overlongVerifiedFrameDropped : Obligations.OverlongVerifiedFrameDropped :=
  fun _ _ h hc hl => exec_waitCrc_overlong h hc.symm (Nat.not_le.2 hl)

/-- Settles O28: the mismatch that is no restart. -/
theorem crcMismatchDropsFrame : Obligations.CrcMismatchDropsFrame := by
  intro i s h hc hstart
  rw [exec_crcMismatch h hc, State.crcMismatch_eq, if_neg hstart]
  rfl

/-- Settles O30: the mismatch by START, with the parameter free. -/
theorem startThatIsNotTheCrc : Obligations.StartThatIsNotTheCrc := by
  intro s h hc
  have hne : Instr.start.byte ≠ s.rxCrc := hc.symm
  rw [exec_crcMismatch h hne, State.crcMismatch_eq]
  simp only [show Instr.start.byte = START from rfl, true_and]
  rfl

end Sys2Proof.Machine
end

section
/-! Classifying a byte and running its instruction is the step of 41_receiver.md R53 with its own order of tests. -/

namespace Sys2Proof.Machine

open Codec

variable {s : State} {b : Byte}

/-- In the two CRC positions the byte's class plays no part. -/
theorem exec_classify_crc (h : s.st = .waitCrc ∨ s.st = .waitCrcWithTag) (b : Byte) :
    exec (classify b) s = rxStep b s := by
  rw [rxStep, if_pos h]
  by_cases hc : b = s.rxCrc
  · have hb : (classify b).byte = s.rxCrc := by rw [byte_classify, hc]
    rw [if_pos hc]
    rcases h with h | h
    · rw [if_pos h]
      split
      next hl => exact exec_waitCrc_deliver h hb hl
      next hl => exact exec_waitCrc_overlong h hb hl
    · rw [if_neg (by simp [h])]
      exact exec_waitCrcWithTag_deliver h hb
  · rw [if_neg hc, exec_crcMismatch h (by rwa [byte_classify]), byte_classify, State.crcMismatch_eq]
    split <;> rfl

theorem exec_classify_waitStart (h : s.st = .waitStart) (b : Byte) : exec (classify b) s = rxStep b s := by
  simp [exec_waitStart h, classify_eq_start_iff, rxStep, h]

/-- A byte that is neither START nor a codeword is END, END_TAG or INVALID. -/
theorem classify_of_decCheck_none (hd : decCheck b = none) (hb : b ≠ START) :
    classify b = .endFrame ∨ classify b = .endTag ∨ ∃ w, classify b = .invalid w := by
  rcases classify_cases b with ⟨h, -⟩ | ⟨-, h⟩ | ⟨-, h⟩ | ⟨n, rfl, -⟩ | ⟨-, h⟩
  · exact absurd h hb
  · exact .inl h
  · exact .inr (.inl h)
  · simp at hd
  · exact .inr (.inr ⟨b, h⟩)

/-- Where only a codeword goes on, the classes but START and `DATA` drop the frame alike. -/
theorem exec_classify_codeword (h : s.st = .waitDestinationId ∨ s.st = .waitByteLow) (b : Byte) :
    exec (classify b) s = rxStep b s := by
  by_cases hb : b = START
  · subst hb
    have hcl : s.st.classified = true := by rcases h with h | h <;> rw [h] <;> rfl
    rw [classify_start, exec_start_of_classified hcl]
    rcases h with h | h <;> simp [rxStep, h]
  cases hd : decCheck b with
  | some n =>
    rw [(classify_eq_dataInstr_iff b n).2 hd]
    rcases h with h | h
    · simp [exec_data_waitDestinationId h, rxStep, h, hb, hd]
    · simp [exec_data_waitByteLow h, rxStep, h, hb, hd]
  | none =>
    rw [exec_nonCodeword h (classify_of_decCheck_none hd hb)]
    rcases h with h | h <;> simp [rxStep, h, hb, hd]

/-- At a byte boundary each class has its own operation. -/
theorem exec_classify_waitByteHigh (h : s.st = .waitByteHigh) (b : Byte) : exec (classify b) s = rxStep b s := by
  rcases classify_cases b with ⟨rfl, hcl⟩ | ⟨rfl, hcl⟩ | ⟨rfl, hcl⟩ | ⟨n, rfl, hcl⟩ | ⟨hb, hcl⟩ <;> rw [hcl]
  · rw [exec_start_of_classified (by rw [h]; rfl)]
    simp [rxStep, h]
  · rw [exec_end_waitByteHigh h]
    simp [rxStep, h, show END ≠ START by decide]
  · rw [exec_endTag_waitByteHigh h]
    simp [rxStep, h, show END_TAG ≠ START by decide, show END_TAG ≠ END by decide]
  · rw [exec_data_waitByteHigh h]
    simp [rxStep, h, encNibble_ne_start, encNibble_ne_end, encNibble_ne_endTag]
  · obtain ⟨hstart, hend, hendTag, hcode⟩ := (invalidByte_iff b).1 hb
    rw [exec_invalid_waitByteHigh h]
    simp [rxStep, h, hstart, hend, hendTag, (decCheck_eq_none_iff b).2 hcode]

/-- Settles O12: position by position. -/
theorem instructionsFollowTheStepOrder : Obligations.InstructionsFollowTheStepOrder := by
  intro b s
  cases h : s.st with
  | waitStart => exact exec_classify_waitStart h b
  | waitDestinationId => exact exec_classify_codeword (.inl h) b
  | waitByteHigh => exact exec_classify_waitByteHigh h b
  | waitByteLow => exact exec_classify_codeword (.inr h) b
  | waitCrc => exact exec_classify_crc (.inl h) b
  | waitCrcWithTag => exact exec_classify_crc (.inr h) b

end Sys2Proof.Machine
end

section
/-! The receiver invariants (41_receiver.md R80) along a step: each effect of an instruction keeps them. -/

namespace Sys2Proof.Machine

/-- The invariants speak of the parameters and of the receiver's own registers alone. -/
theorem State.Inv.of_receiver_eq {s t : State} (hs : s.Inv) (hcfg : t.cfg = s.cfg) (hst : t.st = s.st)
    (hdest : t.dest = s.dest) (hlen : t.len = s.len) (hbuf : t.buf = s.buf) : t.Inv := by
  obtain ⟨wf, range, bound, written, dest, room, half, tag⟩ := hs
  constructor <;> simpa only [hcfg, hst, hdest, hlen, hbuf]

/-- Outside the receiving positions they speak of the buffer alone. -/
theorem State.Inv.of_not_receiving {t : State} (hst : t.st.receiving = false) (hwf : Memory.wf t.buf = true)
    (hrange : ∀ c ∈ t.buf, c.1 < t.cfg.bufCap) : t.Inv where
  bufWf := hwf
  bufInRange := hrange
  lenBound h := by simp [hst] at h
  bufWritten h := by simp [hst] at h
  destAccepted h := by simp [hst] at h
  roomLow h := by simp [h, Position.receiving] at hst
  pendingHalf h := by simp [h, Position.receiving] at hst
  tagStored h := by simp [h, Position.receiving] at hst

theorem State.inv_resetWith (c : Config) : (State.resetWith c).Inv :=
  .of_not_receiving rfl (State.resetWith_bufWf c) nofun

/-- A drop or a restart, from any position. -/
theorem State.Inv.goTo_not_receiving {s : State} (hs : s.Inv) {p : Position} (hp : p.receiving = false) :
    (s.goTo p).Inv :=
  .of_not_receiving hp hs.bufWf hs.bufInRange

/-- A write keeps the canonical form and the range of the indices: out of range it writes nothing. -/
theorem State.writeByte_bufWf {s : State} (hs : s.Inv) (i : Nat) (v : Byte) :
    Memory.wf (s.writeByte i v).buf = true := by
  rw [State.writeByte_buf]
  split
  · exact Memory.wf_write hs.bufWf i v
  · exact hs.bufWf

theorem State.writeByte_bufInRange {s : State} (hs : s.Inv) (i : Nat) (v : Byte) :
    ∀ c ∈ (s.writeByte i v).buf, c.1 < s.cfg.bufCap := by
  intro c hc
  rw [State.writeByte_buf] at hc
  split at hc
  next hi =>
    rcases Memory.mem_write hc with rfl | hc
    · exact hi
    · exact hs.bufInRange c hc
  next => exact hs.bufInRange c hc

/-- A write leaves no written cell unwritten. -/
theorem State.writeByte_written {s : State} {i j : Nat} (hi : i < s.cfg.bufCap) (v : Byte)
    (hj : j ≠ i → (Memory.read s.buf j).isSome = true) : (Memory.read (s.writeByte i v).buf j).isSome = true := by
  rw [State.writeByte_read hi]
  split
  · rfl
  next hne => exact hj hne

/-- R59: an accepted destination, no stored byte yet. -/
theorem State.Inv.accepted {s : State} (hs : s.Inv) {n : Nibble} (ha : addressed s.cfg n = true) :
    ((s.beginFrame n).goTo .waitByteHigh).Inv where
  bufWf := hs.bufWf
  bufInRange := hs.bufInRange
  lenBound _ := Nat.zero_le _
  bufWritten _ _ h := absurd h (Nat.not_lt_zero _)
  destAccepted _ := addressed_iff.1 ha
  roomLow h := by cases h
  pendingHalf h := by cases h
  tagStored h := by cases h

/-- R63, R64: the stored bytes stay; a tagged frame has two of them. -/
theorem State.Inv.goTo_crc {s : State} (hs : s.Inv) (hst : s.st = .waitByteHigh) {p : Position}
    (hp : p ≠ .waitByteLow) (ht : p = .waitCrcWithTag → 2 ≤ s.len) : (s.goTo p).Inv := by
  have hr : s.st.receiving = true := by rw [hst]; rfl
  exact
    { bufWf := hs.bufWf, bufInRange := hs.bufInRange, lenBound := fun _ => hs.lenBound hr,
      bufWritten := fun _ => hs.bufWritten hr, destAccepted := fun _ => hs.destAccepted hr,
      roomLow := fun h => absurd h hp, pendingHalf := fun h => absurd h hp, tagStored := ht }

/-- R66: the pending slot gets a byte whose low nibble is 0. -/
theorem State.Inv.storedHigh {s : State} (hs : s.Inv) (hst : s.st = .waitByteHigh) (room : s.len < s.cfg.bufCap)
    (n : Nibble) : ((s.writeByte s.len (highHalf n)).goTo .waitByteLow).Inv := by
  have hr : s.st.receiving = true := by rw [hst]; rfl
  exact
    { bufWf := State.writeByte_bufWf hs _ _
      bufInRange := State.writeByte_bufInRange hs _ _
      lenBound := fun _ => room.le
      bufWritten := fun _ j hj => State.writeByte_written room _ fun _ => hs.bufWritten hr j hj
      destAccepted := fun _ => hs.destAccepted hr
      roomLow := fun _ => room
      pendingHalf := fun _ => ⟨highHalf n, by simp [room], Codec.lowNibble_shift n⟩
      tagStored := nofun }

/-- R70: the completed byte is written before it is counted. -/
theorem State.Inv.storedLow {s : State} (hs : s.Inv) (hst : s.st = .waitByteLow) (b : Byte) :
    (((s.writeByte s.len b).countByte b).goTo .waitByteHigh).Inv := by
  have hr : s.st.receiving = true := by rw [hst]; rfl
  have room := hs.roomLow hst
  exact
    { bufWf := State.writeByte_bufWf hs _ _
      bufInRange := State.writeByte_bufInRange hs _ _
      lenBound := fun _ => room
      bufWritten := fun _ j hj => State.writeByte_written room _ fun hne =>
        hs.bufWritten hr j (lt_of_le_of_ne (Nat.lt_succ_iff.1 hj) hne)
      destAccepted := fun _ => hs.destAccepted hr
      roomLow := nofun
      pendingHalf := nofun
      tagStored := nofun }

/-- R80 for one instruction. -/
theorem Effect.keeps_inv {i : Instr} {s t : State} (h : Effect i s t) (hs : s.Inv) : t.Inv := by
  cases h with
  | discarded => exact hs
  | dropped | restarted => exact hs.goTo_not_receiving rfl
  | accepted n _ _ ha => exact hs.accepted ha
  | ended hst => exact hs.goTo_crc hst nofun nofun
  | endedTagged hst _ hl => exact hs.goTo_crc hst nofun fun _ => hl
  | storedHigh n hst _ room => exact hs.storedHigh hst room n
  | storedLow n hst => exact hs.storedLow hst _
  | delivered | deliveredTagged => exact .of_not_receiving rfl hs.bufWf hs.bufInRange

/-- The sender's own writes go to the byte sink. -/
theorem State.sendBytes_eq (d : Int) (p : List Byte) (t : Option Tag) (s : State) :
    ∃ x, s.sendBytes d p t = { s with tx := x } := by
  cases t with
  | none =>
    simp only [State.sendBytes, State.writePayload_eq, State.write]
    exact ⟨_, rfl⟩
  | some v =>
    simp only [State.sendBytes, State.writePayload_eq, State.writeEncoded, State.write]
    exact ⟨_, rfl⟩

/-- A `send` changes the bytes sent and nothing else (10_state.md R20; 42_sender.md R93). -/
theorem State.send_eq (r : SendRequest) (s : State) : ∃ x, s.send r = { s with tx := x } := by
  unfold State.send
  split
  · exact State.sendBytes_eq ..
  · exact State.sendBytes_eq ..
  · exact ⟨s.tx, rfl⟩
  · exact ⟨s.tx, rfl⟩

/-- R80 for one step, whatever the event. -/
theorem step_keeps_inv {s t : State} (hs : s.Inv) (h : step s = .next t) : t.Inv := by
  rcases step_cases h with ⟨-, rfl⟩ | ⟨b, rest, -, heff⟩ | ⟨r, rest, -, rfl⟩
  · exact hs
  · exact heff.keeps_inv (hs.of_receiver_eq rfl rfl rfl rfl rfl)
  · obtain ⟨x, hx⟩ := State.send_eq r { s with input := rest }
    rw [hx]
    exact hs.of_receiver_eq rfl rfl rfl rfl rfl

/-- (I4) of R80: the accessed cells lie in the buffer. -/
theorem bufAccesses_inRange {s : State} (hs : s.Inv) {i : Instr} {a : Nat} (ha : a ∈ bufAccesses i s) :
    a < s.cfg.bufCap := by
  cases hst : s.st with
  | waitStart | waitDestinationId => simp [bufAccesses, hst] at ha
  | waitByteHigh =>
    simp only [bufAccesses, hst, List.mem_ite_nil_right, List.mem_singleton] at ha
    obtain ⟨⟨-, room⟩, rfl⟩ := ha
    exact room
  | waitByteLow =>
    simp only [bufAccesses, hst, List.mem_ite_nil_right, List.mem_singleton] at ha
    rw [ha.2]
    exact hs.roomLow hst
  | waitCrc =>
    have bound := hs.lenBound (by rw [hst]; rfl)
    simp only [bufAccesses, hst, List.mem_range] at ha
    omega
  | waitCrcWithTag =>
    have bound := hs.lenBound (by rw [hst]; rfl)
    have two := hs.tagStored hst
    simp only [bufAccesses, hst, List.mem_append, List.mem_range, List.mem_cons, List.not_mem_nil, or_false] at ha
    omega

end Sys2Proof.Machine
end

section
/-! The cells an instruction touches (20_memory.md R27): it neither reads nor writes a cell that `bufAccesses` does not
list. -/

namespace Sys2Proof.Machine

/-- The state with another buffer. -/
def State.withBuf (m : Memory) (s : State) : State := { s with buf := m }

/-- The answers `a`, from `s`, and `a'`, from `s` with the buffer `m`, are next states that differ in their buffers
only, and each buffer keeps the cells that are not in `cells`. -/
def Confined (cells : List Nat) (s : State) (m : Memory) (a a' : Answer) : Prop :=
  ∃ (t : State) (m' : Memory), a = .next t ∧ a' = .next (t.withBuf m') ∧
    ∀ c, c ∉ cells → Memory.read t.buf c = Memory.read s.buf c ∧ Memory.read m' c = Memory.read m c

variable {cells : List Nat} {s : State} {m : Memory}

/-- Nothing is written. -/
theorem Confined.of_unwritten {t : State} (h : t.buf = s.buf) :
    Confined cells s m (.next t) (.next (t.withBuf m)) :=
  ⟨t, m, rfl, rfl, fun c _ => ⟨congrArg (Memory.read · c) h, rfl⟩⟩

theorem Confined.takeDestination (n : Nibble) :
    Confined cells s m (s.takeDestination n) ((s.withBuf m).takeDestination n) := by
  by_cases ha : addressed s.cfg n = true
  · rw [State.takeDestination_accepted ha, State.takeDestination_accepted (s := s.withBuf m) ha]
    exact .of_unwritten rfl
  · rw [State.takeDestination_foreign ha, State.takeDestination_foreign (s := s.withBuf m) ha]
    exact .of_unwritten rfl

theorem Confined.endTagged : Confined cells s m s.endTagged (s.withBuf m).endTagged := by
  by_cases hl : 2 ≤ s.len
  · rw [State.endTagged_next hl, State.endTagged_next (s := s.withBuf m) hl]
    exact .of_unwritten rfl
  · rw [State.endTagged_malformed hl, State.endTagged_malformed (s := s.withBuf m) hl]
    exact .of_unwritten rfl

/-- A full buffer is not written, and otherwise the pending slot alone is. -/
theorem Confined.storeHigh (n : Nibble) (hc : s.len < s.cfg.bufCap → s.pendingSlot ∈ cells) :
    Confined cells s m (s.storeHigh n) ((s.withBuf m).storeHigh n) := by
  by_cases room : s.len < s.cfg.bufCap
  · rw [State.storeHigh_next n room, State.storeHigh_next (s := s.withBuf m) n room]
    refine ⟨_, ((s.withBuf m).writeByte s.len (highHalf n)).buf, rfl, rfl, fun c hcells => ?_⟩
    have other : c ≠ s.len := fun e => hcells (e ▸ hc room)
    exact ⟨State.writeByte_read_other s _ other, State.writeByte_read_other (s.withBuf m) _ other⟩
  · rw [State.storeHigh_full n room, State.storeHigh_full (s := s.withBuf m) n room]
    exact .of_unwritten rfl

/-- The pending slot is read and written. -/
theorem Confined.storeLow (n : Nibble) (hc : s.pendingSlot ∈ cells)
    (hm : ∀ a ∈ cells, Memory.read m a = Memory.read s.buf a) :
    Confined cells s m (s.storeLow n) ((s.withBuf m).storeLow n) := by
  have hread : (s.withBuf m).readByte s.len = s.readByte s.len := State.readByte_congr rfl (hm _ hc)
  rw [State.storeLow_eq, State.storeLow_eq]
  refine ⟨_, ((s.withBuf m).writeByte s.len (addLow (s.readByte s.len) n)).buf, rfl, ?_, fun c hcells => ?_⟩
  · rw [← hread]; rfl
  · have other : c ≠ s.len := fun e => hcells (e ▸ hc)
    exact ⟨State.writeByte_read_other s _ other, State.writeByte_read_other (s.withBuf m) _ other⟩

/-- The comparison with the computed CRC reads the stored bytes. -/
theorem State.withBuf_rxCrc (hm : ∀ a, a < s.len → Memory.read m a = Memory.read s.buf a) :
    (s.withBuf m).rxCrc = s.rxCrc :=
  State.rxCrc_congr rfl rfl rfl hm

theorem Confined.crcMismatch (b : Byte) : Confined cells s m (s.crcMismatch b) ((s.withBuf m).crcMismatch b) := by
  rw [State.crcMismatch_eq, State.crcMismatch_eq]
  exact .of_unwritten rfl

theorem Confined.deliver (hm : ∀ a, a < s.len → Memory.read m a = Memory.read s.buf a) :
    Confined cells s m s.deliver (s.withBuf m).deliver := by
  have hspan : (s.withBuf m).readSpan s.len = s.readSpan s.len := State.readSpan_congr rfl hm
  rw [State.deliver_eq, State.deliver_eq, show (s.withBuf m).len = s.len from rfl, hspan]
  exact .of_unwritten rfl

theorem Confined.deliverTagged (hm : ∀ a, a < s.len → Memory.read m a = Memory.read s.buf a)
    (hhi : Memory.read m (s.len - 2) = Memory.read s.buf (s.len - 2))
    (hlo : Memory.read m (s.len - 2 + 1) = Memory.read s.buf (s.len - 2 + 1)) :
    Confined cells s m s.deliverTagged (s.withBuf m).deliverTagged := by
  have hspan : (s.withBuf m).readSpan (s.len - 2) = s.readSpan (s.len - 2) :=
    State.readSpan_congr rfl fun j hj => hm j (by omega)
  have htag : (s.withBuf m).readTag (s.len - 2) = s.readTag (s.len - 2) := State.readTag_congr rfl hhi hlo
  rw [State.deliverTagged_eq, State.deliverTagged_eq, show (s.withBuf m).len = s.len from rfl, hspan, htag]
  exact .of_unwritten rfl

theorem Confined.takeCrc (b : Byte) (hm : ∀ a, a < s.len → Memory.read m a = Memory.read s.buf a) :
    Confined cells s m (s.takeCrc b) ((s.withBuf m).takeCrc b) := by
  unfold State.takeCrc
  rw [State.withBuf_rxCrc hm, show (s.withBuf m).lengthOk = s.lengthOk from rfl]
  split
  · split
    · exact .deliver hm
    · exact .of_unwritten rfl
  · exact .crcMismatch b

theorem Confined.takeCrcTagged (b : Byte) (hm : ∀ a, a < s.len → Memory.read m a = Memory.read s.buf a)
    (hhi : Memory.read m (s.len - 2) = Memory.read s.buf (s.len - 2))
    (hlo : Memory.read m (s.len - 2 + 1) = Memory.read s.buf (s.len - 2 + 1)) :
    Confined cells s m (s.takeCrcTagged b) ((s.withBuf m).takeCrcTagged b) := by
  unfold State.takeCrcTagged
  rw [State.withBuf_rxCrc hm]
  split
  · exact .deliverTagged hm hhi hlo
  · exact .crcMismatch b

/-- START in a classified position. -/
theorem Confined.exec_start (h : s.st.classified = true) :
    Confined cells s m (exec .start s) (exec .start (s.withBuf m)) := by
  rw [exec_start_of_classified h, exec_start_of_classified (s := s.withBuf m) h]
  exact .of_unwritten rfl

/-- END, END_TAG and INVALID where a codeword is required. -/
theorem Confined.exec_nonCodeword (h : s.st = .waitDestinationId ∨ s.st = .waitByteLow) {i : Instr}
    (hi : i = .endFrame ∨ i = .endTag ∨ ∃ w, i = .invalid w) :
    Confined cells s m (exec i s) (exec i (s.withBuf m)) := by
  rw [Machine.exec_nonCodeword h hi, Machine.exec_nonCodeword (s := s.withBuf m) h hi]
  exact .of_unwritten rfl

theorem Confined.exec_waitStart (h : s.st = .waitStart) (i : Instr) :
    Confined cells s m (exec i s) (exec i (s.withBuf m)) := by
  rw [Machine.exec_waitStart h, Machine.exec_waitStart (s := s.withBuf m) h]
  split <;> exact .of_unwritten rfl

theorem Confined.exec_waitDestinationId (h : s.st = .waitDestinationId) (i : Instr) :
    Confined cells s m (exec i s) (exec i (s.withBuf m)) := by
  rcases i.class_cases with rfl | hi | hi | ⟨n, rfl⟩ | hi
  · exact .exec_start (by rw [h]; rfl)
  · exact .exec_nonCodeword (.inl h) (.inl hi)
  · exact .exec_nonCodeword (.inl h) (.inr (.inl hi))
  · rw [exec_data_waitDestinationId h, exec_data_waitDestinationId (s := s.withBuf m) h]
    exact .takeDestination n
  · exact .exec_nonCodeword (.inl h) (.inr (.inr hi))

theorem Confined.exec_waitByteHigh (h : s.st = .waitByteHigh) (i : Instr) :
    Confined (bufAccesses i s) s m (exec i s) (exec i (s.withBuf m)) := by
  rcases i.class_cases with rfl | rfl | rfl | ⟨n, rfl⟩ | ⟨w, rfl⟩
  · exact .exec_start (by rw [h]; rfl)
  · rw [exec_end_waitByteHigh h, exec_end_waitByteHigh (s := s.withBuf m) h]
    exact .of_unwritten rfl
  · rw [exec_endTag_waitByteHigh h, exec_endTag_waitByteHigh (s := s.withBuf m) h]
    exact .endTagged
  · rw [exec_data_waitByteHigh h, exec_data_waitByteHigh (s := s.withBuf m) h]
    exact .storeHigh n fun room => by simp [bufAccesses, h, room]
  · rw [exec_invalid_waitByteHigh h, exec_invalid_waitByteHigh (s := s.withBuf m) h]
    exact .of_unwritten rfl

theorem Confined.exec_waitByteLow (h : s.st = .waitByteLow) (i : Instr)
    (hm : ∀ a ∈ bufAccesses i s, Memory.read m a = Memory.read s.buf a) :
    Confined (bufAccesses i s) s m (exec i s) (exec i (s.withBuf m)) := by
  rcases i.class_cases with rfl | hi | hi | ⟨n, rfl⟩ | hi
  · exact .exec_start (by rw [h]; rfl)
  · exact .exec_nonCodeword (.inr h) (.inl hi)
  · exact .exec_nonCodeword (.inr h) (.inr (.inl hi))
  · rw [exec_data_waitByteLow h, exec_data_waitByteLow (s := s.withBuf m) h]
    exact .storeLow n (by simp [bufAccesses, h]) hm
  · exact .exec_nonCodeword (.inr h) (.inr (.inr hi))

/-- The listed cells are all an instruction reads or writes, in every state. -/
theorem exec_confined (i : Instr) (s : State) (m : Memory)
    (hm : ∀ a ∈ bufAccesses i s, Memory.read m a = Memory.read s.buf a) :
    Confined (bufAccesses i s) s m (exec i s) (exec i (s.withBuf m)) := by
  cases h : s.st with
  | waitStart => exact .exec_waitStart h i
  | waitDestinationId => exact .exec_waitDestinationId h i
  | waitByteHigh => exact .exec_waitByteHigh h i
  | waitByteLow => exact .exec_waitByteLow h i hm
  | waitCrc =>
    rw [exec_waitCrc h, exec_waitCrc (s := s.withBuf m) h]
    exact .takeCrc _ fun a ha => hm a (by simpa [bufAccesses, h] using ha)
  | waitCrcWithTag =>
    rw [exec_waitCrcWithTag h, exec_waitCrcWithTag (s := s.withBuf m) h]
    exact .takeCrcTagged _ (fun a ha => hm a (by simp [bufAccesses, h, ha]))
      (hm _ (by simp [bufAccesses, h])) (hm _ (by simp [bufAccesses, h]))

/-- Every instruction answers a next state, in every state (60_exceptions.md R95). -/
theorem exec_next (i : Instr) (s : State) : ∃ t, exec i s = .next t := by
  obtain ⟨t, -, h, -⟩ := exec_confined i s s.buf fun _ _ => rfl
  exact ⟨t, h⟩

/-- So does every step. -/
theorem step_next (s : State) : ∃ t, step s = .next t := by
  cases hin : s.input with
  | nil => exact ⟨s, step_nil hin⟩
  | cons e rest =>
    cases e with
    | rxByte b => rw [step_rxByte hin]; exact exec_next _ _
    | send r => exact ⟨_, step_send hin⟩

/-- Settles O3: reset, then the step with the range of its accesses, then the completeness of the listed accesses. -/
theorem stepKeepsReceiverInvariants : Obligations.StepKeepsReceiverInvariants := by
  refine ⟨State.inv_resetWith, fun s hs => ⟨?_, fun i a => bufAccesses_inRange hs⟩, exec_confined⟩
  obtain ⟨t, ht⟩ := step_next s
  exact ⟨t, ht, step_keeps_inv hs ht⟩

end Sys2Proof.Machine
end

section
/-! The receive rules that rest on the invariants: what the written cells hold (41_receiver.md R70, R72, R75), and the
address filter (R84). -/

namespace Sys2Proof.Machine

variable {s : State}

/-- Under the invariants a span of stored bytes is the span of their cells. -/
theorem State.Inv.readSpan_stored (hs : s.Inv) (hr : s.st.receiving = true) {k : Nat} (hk : k ≤ s.len) :
    ∀ j, j < k → (s.readSpan k)[j]? = Memory.read s.buf j := fun j hj =>
  State.readSpan_getElem?_of_written (hk.trans (hs.lenBound hr)) (hs.bufWritten hr j (by omega)) hj

/-- A stored byte, by name. -/
theorem State.Inv.stored (hs : s.Inv) (hr : s.st.receiving = true) {j : Nat} (hj : j < s.len) :
    ∃ v, Memory.read s.buf j = some v :=
  Option.isSome_iff_exists.1 (hs.bufWritten hr j hj)

/-- A low half added to a byte that has none does not carry (30_encoding.md R37 b). -/
theorem addLow_toNat {v : Byte} (h : Codec.lowNibble v = 0) (n : Nibble) :
    (addLow v n).toNat = v.toNat + n.toNat := by
  have hv : v.toNat % 16 = 0 := by simpa [Codec.lowNibble] using congrArg BitVec.toNat h
  have bv := v.isLt
  have bn := n.isLt
  rw [addLow, BitVec.toNat_add, Codec.zext8, BitVec.toNat_setWidth_of_le (by omega)]
  omega

/-- Settles O23: the pending byte is read, completed without carry, written back and counted. -/
theorem lowNibbleCompletesByte : Obligations.LowNibbleCompletesByte := by
  intro n s hs h
  have room := hs.roomLow h
  obtain ⟨v, hv, hhalf⟩ := hs.pendingHalf h
  rw [exec_data_waitByteLow h, State.storeLow_eq, State.readByte_of_read room hv]
  refine ⟨_, v, addLow v n, rfl, hv, ?_, addLow_toNat hhalf n, fun a ha => ?_, rfl⟩
  · exact (State.writeByte_read room _ _).trans (if_pos rfl)
  · exact State.writeByte_read_other s _ ha

/-- Settles O26: the message is the span of the stored cells. -/
theorem matchingCrcDeliversMessage : Obligations.MatchingCrcDeliversMessage := by
  intro i s hs h hc hl
  have hr : s.st.receiving = true := by rw [h]; rfl
  refine ⟨s.readSpan s.len, State.readSpan_length .., hs.readSpan_stored hr le_rfl, ?_⟩
  rw [exec_waitCrc_deliver h hc.symm hl]
  rfl

/-- The high byte of a tag counts 256 (30_encoding.md R37 c). -/
theorem joinTag_toNat (hi lo : Byte) : (Codec.joinTag hi lo).toNat = hi.toNat * 256 + lo.toNat := by
  rw [Codec.joinTag, BitVec.toNat_append, ← Nat.shiftLeft_add_eq_or_of_lt lo.isLt, Nat.shiftLeft_eq]

/-- Settles O29: the last two stored cells are the tag, the cells before them the message. -/
theorem matchingCrcDeliversTaggedMessage : Obligations.MatchingCrcDeliversTaggedMessage := by
  intro i s hs h hc
  have hr : s.st.receiving = true := by rw [h]; rfl
  have two := hs.tagStored h
  have bound : s.len ≤ s.cfg.maxMessageSize + 2 := hs.lenBound hr
  obtain ⟨hi, hhi⟩ := hs.stored hr (j := s.len - 2) (by omega)
  obtain ⟨lo, hlo⟩ := hs.stored hr (j := s.len - 1) (by omega)
  have htag : s.readTag (s.len - 2) = Codec.joinTag hi lo :=
    State.readTag_of_reads (by rw [Config.bufCap]; omega) hhi (by rwa [show s.len - 2 + 1 = s.len - 1 by omega])
  refine ⟨s.readSpan (s.len - 2), hi, lo, Codec.joinTag hi lo, State.readSpan_length ..,
    hs.readSpan_stored hr (Nat.sub_le ..), hhi, hlo, joinTag_toNat hi lo, by omega, ?_⟩
  rw [exec_waitCrcWithTag_deliver h hc.symm, State.deliverTagged_eq, htag]
  rfl

/-- Only the two CRC positions emit a message. -/
theorem Effect.receiving_of_delivered {i : Instr} {s t : State} (h : Effect i s t)
    (hd : t.delivered ≠ s.delivered) : s.st.receiving = true := by
  cases h with
  | delivered hst | deliveredTagged hst => rw [hst]; rfl
  | _ => exact absurd rfl hd

/-- So the destination of an emitted message was accepted when its frame began (R80 (I1)). -/
theorem destAccepted_of_delivered {s t : State} (hs : s.Inv) (h : step s = .next t)
    (hd : t.delivered ≠ s.delivered) : s.cfg.myId = 0 ∨ s.dest = 0 ∨ s.dest = s.cfg.myId := by
  rcases step_cases h with ⟨-, rfl⟩ | ⟨b, rest, -, heff⟩ | ⟨r, rest, -, rfl⟩
  · exact absurd rfl hd
  · exact hs.destAccepted (heff.receiving_of_delivered hd)
  · obtain ⟨x, hx⟩ := State.send_eq r { s with input := rest }
    exact absurd (by rw [hx]) hd

/-- The one way past the destination is a codeword that the filter accepts. -/
theorem Effect.accepted_of_waitByteHigh {i : Instr} {s t : State} (h : Effect i s t)
    (hst : s.st = .waitDestinationId) (ht : t.st = .waitByteHigh) :
    ∃ n, i = dataInstr n ∧ t.dest = n ∧ addressed s.cfg n = true := by
  cases h with
  | accepted n _ hn ha => exact ⟨n, hn, rfl, ha⟩
  | discarded => exact absurd (hst.symm.trans ht) nofun
  | storedLow n hlow => exact absurd (hst.symm.trans hlow) nofun
  | _ => exact absurd ht nofun

/-- Settles O58: the filter at the destination, the kept destination at the message, and the open filter of identity
0. -/
theorem addressFilter : Obligations.AddressFilter := by
  refine ⟨fun i s t h hst ht hid => ?_, fun s t hs h hd hid => ?_, fun n s hst hid => ?_⟩
  · obtain ⟨n, hi, hdest, ha⟩ := (exec_effect h).accepted_of_waitByteHigh hst ht
    exact ⟨n, hi, hdest, (addressed_iff.1 ha).resolve_left hid⟩
  · exact (destAccepted_of_delivered hs h hd).resolve_left hid
  · rw [exec_data_waitDestinationId hst, State.takeDestination_accepted (addressed_iff.2 (.inl hid))]
    exact ⟨_, rfl, rfl, rfl⟩

end Sys2Proof.Machine
end

section
/-! The sender (42_sender.md): the coercion of the destination (R88), the argument guards (R89), what a send writes
(R87, R90) and its shape (R94). -/

namespace Sys2Proof

namespace Codec

/-- Every byte of an encoded sequence is a codeword (40_codec.md R48). -/
theorem codeword_of_mem_encoded {w : Byte} {bs : List Byte} (h : w ∈ bs.flatMap encByte) :
    ∃ n, w = encNibble n := by
  obtain ⟨b, -, hw⟩ := List.mem_flatMap.1 h
  have halves : w = encNibble (highNibble b) ∨ w = encNibble (lowNibble b) := by simpa [encByte] using hw
  exact halves.elim (fun e => ⟨_, e⟩) (fun e => ⟨_, e⟩)

/-- A raw byte takes two wire bytes (40_codec.md R48). -/
theorem encoded_length (bs : List Byte) : (bs.flatMap encByte).length = 2 * bs.length := by
  simp [List.length_flatMap, encByte, Nat.mul_comm]

/-- A tag is two raw bytes (30_encoding.md R32). -/
theorem tagBytes_length (t : Option Tag) : (tagBytes t).length = if t.isSome then 2 else 0 := by
  cases t <;> rfl

end Codec

namespace Machine

/-! ### The destination (R88) -/

theorem coerce_toNat {d : Int} (h0 : 0 ≤ d) (h15 : d ≤ 15) : ((coerce d).toNat : Int) = d := by
  rw [coerce, if_pos ⟨h0, h15⟩, BitVec.toNat_ofInt]
  omega

theorem coerce_of_outside {d : Int} (h : d < 0 ∨ 15 < d) : coerce d = BROADCAST :=
  if_neg (by omega)

/-! ### The whole send (R87, R90) -/

/-- A send of a byte sequence appends the frame of its coerced destination and changes nothing else. The CRC the sender
runs field by field is the one computation over them, as 40_codec.md R45 chains it. -/
theorem State.sendBytes_eq_frame (d : Int) (p : List Byte) (t : Option Tag) (s : State) :
    s.sendBytes d p t = { s with tx := s.tx ++ frame (coerce d) p t } := by
  have crc : Codec.crc8 CRC_INIT ([Codec.zext8 (coerce d)] ++ p ++ Codec.tagBytes t) =
      Codec.crc8 (Codec.crc8 (Codec.crc8 CRC_INIT [Codec.zext8 (coerce d)]) p) (Codec.tagBytes t) := by
    rw [Codec.crc8_append, Codec.crc8_append]
  rw [frame, crc]
  cases t with
  | none => simp [State.sendBytes, State.writePayload_eq, State.write, Codec.tagBytes]
  | some v =>
    simp [State.sendBytes, State.writePayload_eq, State.writeEncoded, State.write, Codec.encByte, Codec.tagBytes]

/-- Settles O45: the step runs the send, which appends the frame. -/
theorem sendWritesTheFrame : Obligations.SendWritesTheFrame := by
  intro s d p g rest h
  rw [step_send h]
  exact congrArg Host.Outcome.next (State.sendBytes_eq_frame d p g _)

/-! ### The argument guards (R89) -/

section Guards

variable (d : Int) (t : Option Tag) (s : State)

@[simp] theorem State.send_bytes (p : List Byte) : State.send ⟨d, .bytes p, t⟩ s = s.sendBytes d p t := rfl

@[simp] theorem State.send_null_zero : State.send ⟨d, .null 0, t⟩ s = s.sendBytes d [] t := rfl

@[simp] theorem State.send_null_of_pos {k : Nat} (h : 0 < k) : State.send ⟨d, .null k, t⟩ s = s := by
  cases k with
  | zero => contradiction
  | succ k => rfl

@[simp] theorem State.send_negative (k : Nat) : State.send ⟨d, .negative k, t⟩ s = s := rfl

end Guards

/-- Settles O47: the guard of each argument form. -/
theorem guardedSendWritesNothing : Obligations.GuardedSendWritesNothing :=
  fun s d g => ⟨State.send_negative d g s, fun _ => State.send_null_of_pos d g s, State.send_null_zero d g s⟩

/-- A send reads its destination through the coercion alone. -/
theorem State.send_congr_coerce {d e : Int} (h : coerce d = coerce e) (p : PayloadArg) (t : Option Tag) (s : State) :
    State.send ⟨d, p, t⟩ s = State.send ⟨e, p, t⟩ s := by
  have same (q : List Byte) : s.sendBytes d q t = s.sendBytes e q t := by
    rw [State.sendBytes_eq_frame, State.sendBytes_eq_frame, h]
  match p with
  | .bytes q => exact same q
  | .null 0 => exact same []
  | .null (_ + 1) => rfl
  | .negative _ => rfl

/-- Settles O46: the two cases of the coercion, and 0 as the destination that coerces to broadcast. -/
theorem destinationCoercedToBroadcast : Obligations.DestinationCoercedToBroadcast := by
  refine fun s d p g => ⟨coerce_toNat, fun h => ?_⟩
  have broadcast : coerce d = coerce 0 := coerce_of_outside h
  exact ⟨broadcast, State.send_congr_coerce broadcast p g s⟩

/-! ### The shape of a frame (R94; 30_encoding.md R33) -/

/-- What stands between START and the end byte of a frame: the destination, the payload and the tag, encoded
(30_encoding.md R32). -/
def frameCodewords (d : Nibble) (p : List Byte) (t : Option Tag) : List Byte :=
  Codec.encNibble d :: (p ++ Codec.tagBytes t).flatMap Codec.encByte

/-- The end byte of a frame tells whether it is tagged (30_encoding.md R32). -/
def endByte (t : Option Tag) : Byte := if t.isSome then END_TAG else END

/-- A frame is START, codewords, the end byte and the CRC. -/
theorem frame_eq (d : Nibble) (p : List Byte) (t : Option Tag) :
    frame d p t = START :: (frameCodewords d p t ++
      [endByte t, Codec.crc8 CRC_INIT ([Codec.zext8 d] ++ p ++ Codec.tagBytes t)]) := by
  simp [frame, frameCodewords, endByte]

theorem frameCodewords_length (d : Nibble) (p : List Byte) (t : Option Tag) :
    (frameCodewords d p t).length = (if t.isSome then 5 else 1) + 2 * p.length := by
  rw [frameCodewords, List.length_cons, Codec.encoded_length, List.length_append, Codec.tagBytes_length]
  split <;> omega

theorem codeword_of_mem_frameCodewords {d : Nibble} {p : List Byte} {t : Option Tag} {w : Byte}
    (h : w ∈ frameCodewords d p t) : ∃ n, w = Codec.encNibble n := by
  rcases List.mem_cons.1 h with rfl | h
  · exact ⟨d, rfl⟩
  · exact Codec.codeword_of_mem_encoded h

/-- The end byte and the CRC follow START and the codewords. -/
theorem frame_length (d : Nibble) (p : List Byte) (t : Option Tag) :
    (frame d p t).length = (frameCodewords d p t).length + 3 := by
  simp [frame_eq]

theorem frame_getElem?_zero (d : Nibble) (p : List Byte) (t : Option Tag) : (frame d p t)[0]? = some START := by
  simp [frame_eq]

theorem frame_getElem?_endByte (d : Nibble) (p : List Byte) (t : Option Tag) :
    (frame d p t)[(frame d p t).length - 2]? = some (endByte t) := by
  simp [frame_eq]

/-- Strictly between START and the end byte a frame has its codewords. -/
theorem mem_frameCodewords_of_inner {d : Nibble} {p : List Byte} {t : Option Tag} {j : Nat} {w : Byte} (h0 : 0 < j)
    (hj : j < (frame d p t).length - 2) (hw : (frame d p t)[j]? = some w) : w ∈ frameCodewords d p t := by
  rw [frame_length] at hj
  obtain ⟨i, rfl⟩ := Nat.exists_eq_add_one.2 h0
  rw [frame_eq, List.getElem?_cons_succ, List.getElem?_append_left (by omega)] at hw
  exact List.mem_of_getElem? hw

/-- Settles O48: a send appends a frame, whose inner bytes are codewords, and no codeword is a control byte. -/
theorem sentFrameShape : Obligations.SentFrameShape := by
  refine fun s d p g => ⟨frame (coerce d) p g, ?_, ?_, frame_getElem?_zero .., frame_getElem?_endByte ..,
    fun j w h0 hj hw => ?_⟩
  · rw [State.send_bytes, State.sendBytes_eq_frame]
  · rw [frame_length, frameCodewords_length]
    split <;> omega
  · obtain ⟨n, rfl⟩ := codeword_of_mem_frameCodewords (mem_frameCodewords_of_inner h0 hj hw)
    exact ⟨⟨n, rfl⟩, Codec.encNibble_ne_start n, Codec.encNibble_ne_end n, Codec.encNibble_ne_endTag n⟩

end Machine

end Sys2Proof
end

section
/-! The drops (60_exceptions.md R95, R96, R104): where a cause holds an instruction returns to `WaitStart` and does
nothing else, and whatever an instruction does, it puts out at most one message and nothing to the byte sink. -/

namespace Sys2Proof.Machine

variable {i : Instr} {s t : State} {r : DropReason}

/-- START drops nothing where the byte is classified (41_receiver.md R56, R58, R62, R69). -/
theorem dropCause_start (hst : s.st.classified = true) : dropCause .start s = none := by
  cases h : s.st <;> simp_all [dropCause, Position.classified, Instr.nibble?]

/-- At the destination the causes are `Structural` (60_exceptions.md R97) and `NotAddressed` (R98). -/
theorem exec_drop_waitDestinationId (hst : s.st = .waitDestinationId) (h : dropCause i s = some r) :
    exec i s = .next (s.goTo .waitStart) := by
  rcases i.class_cases with rfl | hi | hi | ⟨n, rfl⟩ | hi
  · simp [dropCause_start (s := s) (by rw [hst]; rfl)] at h
  · exact exec_nonCodeword (.inl hst) (.inl hi)
  · exact exec_nonCodeword (.inl hst) (.inr (.inl hi))
  · have foreign : ¬ addressed s.cfg n = true := fun ha => by
      simp only [dropCause, hst, nibble?_dataInstr, if_pos (addressed_iff.1 ha), reduceCtorEq] at h
    rw [exec_data_waitDestinationId hst]
    exact State.takeDestination_foreign foreign
  · exact exec_nonCodeword (.inl hst) (.inr (.inr hi))

/-- At a byte boundary the causes are `Structural` (60_exceptions.md R97), `Overflow` (R100) and `MalformedTag`
(R101). -/
theorem exec_drop_waitByteHigh (hst : s.st = .waitByteHigh) (h : dropCause i s = some r) :
    exec i s = .next (s.goTo .waitStart) := by
  rcases i.class_cases with rfl | rfl | rfl | ⟨n, rfl⟩ | ⟨w, rfl⟩
  · simp [dropCause_start (s := s) (by rw [hst]; rfl)] at h
  · simp [dropCause, hst, Instr.nibble?] at h
  · have short : ¬ 2 ≤ s.len := fun two => by
      simp [dropCause, hst, Instr.nibble?, Nat.not_lt.2 two] at h
    rw [exec_endTag_waitByteHigh hst]
    exact State.endTagged_malformed short
  · have full : ¬ s.len < s.cfg.bufCap := fun room => by
      simp [dropCause, hst, room] at h
    rw [exec_data_waitByteHigh hst]
    exact State.storeHigh_full n full
  · exact exec_invalid_waitByteHigh hst w

/-- Inside a byte the one cause is `Structural` (60_exceptions.md R97). -/
theorem exec_drop_waitByteLow (hst : s.st = .waitByteLow) (h : dropCause i s = some r) :
    exec i s = .next (s.goTo .waitStart) := by
  rcases i.class_cases with rfl | hi | hi | ⟨n, rfl⟩ | hi
  · simp [dropCause_start (s := s) (by rw [hst]; rfl)] at h
  · exact exec_nonCodeword (.inr hst) (.inl hi)
  · exact exec_nonCodeword (.inr hst) (.inr (.inl hi))
  · simp [dropCause, hst] at h
  · exact exec_nonCodeword (.inr hst) (.inr (.inr hi))

/-- While a CRC is awaited the causes are `CrcMismatch` (60_exceptions.md R99) and, for an untagged frame,
`LengthExceeded` (R102). -/
theorem exec_drop_crc (hst : s.st = .waitCrc ∨ s.st = .waitCrcWithTag) (h : dropCause i s = some r) :
    exec i s = .next (s.goTo .waitStart) := by
  by_cases hc : i.byte = s.rxCrc
  · rcases hst with hst | hst
    · have overlong : ¬ s.len ≤ s.cfg.maxMessageSize := fun hl => by simp [dropCause, hst, hc, hl] at h
      exact exec_waitCrc_overlong hst hc overlong
    · simp [dropCause, hst, hc] at h
  · have noRestart : ¬ (i.byte = START ∧ s.cfg.crcMismatchStart = true) := fun restarts => by
      rcases hst with hst | hst <;> simp only [dropCause, hst, if_neg hc, if_pos restarts, reduceCtorEq] at h
    rw [exec_crcMismatch hst hc, State.crcMismatch_eq, if_neg noRestart]

/-- Settles O31: position by position; `WaitStart` has no frame to drop. -/
theorem dropChangesPositionOnly : Obligations.DropChangesPositionOnly := by
  intro i s r h
  cases hst : s.st with
  | waitStart => simp [dropCause, hst] at h
  | waitDestinationId => exact exec_drop_waitDestinationId hst h
  | waitByteHigh => exact exec_drop_waitByteHigh hst h
  | waitByteLow => exact exec_drop_waitByteLow hst h
  | waitCrc => exact exec_drop_crc (.inl hst) h
  | waitCrcWithTag => exact exec_drop_crc (.inr hst) h

/-- No instruction writes to the byte sink (10_state.md R20). -/
theorem Effect.tx_eq (h : Effect i s t) : t.tx = s.tx := by
  cases h <;> rfl

/-- The two deliveries emit one message each, every other effect none (10_state.md R19). -/
theorem Effect.delivered_cases (h : Effect i s t) :
    t.delivered = s.delivered ∨ ∃ m, t.delivered = s.delivered ++ [m] := by
  cases h with
  | delivered | deliveredTagged => exact .inr ⟨_, rfl⟩
  | _ => exact .inl rfl

/-- Settles O4: the answer is one next state, so its uniqueness and the drop follow by comparing answers. -/
theorem everyByteHasASuccessor : Obligations.EveryByteHasASuccessor := by
  refine ⟨step_next, fun i s => ?_⟩
  obtain ⟨t, ht⟩ := exec_next i s
  have only : ∀ u, exec i s = .next u → u = t := fun u hu => Host.Outcome.next.inj (hu.symm.trans ht)
  exact ⟨t, ht, only, (exec_effect ht).tx_eq, (exec_effect ht).delivered_cases,
    fun r hr => (only _ (dropChangesPositionOnly i s r hr)).symm⟩

end Sys2Proof.Machine
end

section
/-! The decoder and the codec invert their encoders (30_encoding.md R36; 40_codec.md R47 to R50), and what the frame of
30_encoding.md R32 owes to its tag. -/

namespace Sys2Proof

open Codec

/-- A well-formed instruction is the class of its own byte (30_encoding.md R36). -/
theorem classify_byte {i : Instr} (h : i.wellFormed = true) : classify i.byte = i := by
  rcases i.class_cases with rfl | rfl | rfl | ⟨n, rfl⟩ | ⟨w, rfl⟩
  · exact classify_start
  · exact classify_end
  · exact classify_endTag
  · rw [byte_dataInstr, classify_encNibble]
  · exact classify_invalid h

theorem encode_classify (w : Byte) : encode (classify w) = [w] := by
  rw [encode, byte_classify]

/-- Settles O10: the byte of an instruction classifies back to it, and a class gives back its byte. -/
theorem decodeEncodeAgree : Obligations.DecodeEncodeAgree := by
  refine ⟨fun i rest hi => ?_, fun bytes hne => ?_, rfl⟩
  · rw [encode, List.singleton_append, decode, classify_byte hi]
  · obtain ⟨w, rest, rfl⟩ := List.exists_cons_of_ne_nil hne
    exact ⟨classify w, rest, rfl, wellFormed_classify w, by rw [encode_classify]; rfl⟩

/-- Settles O9: the classifier on nine words. -/
theorem tableWordsDecode : Obligations.TableWordsDecode := by
  unfold Obligations.TableWordsDecode
  decide

theorem decCheck_eq_some_iff_codeword (w : Byte) (n : Nibble) : decCheck w = some n ↔ w = encNibble n :=
  ⟨encNibble_of_decCheck, fun h => h ▸ decCheck_encNibble n⟩

/-- Settles O41: the codeword of a nibble passes the complement test, and only codewords do. -/
theorem nibbleCodecInverts : Obligations.NibbleCodecInverts := by
  refine ⟨fun n => ?_, decCheck_eq_some_iff_codeword⟩
  obtain ⟨high, low⟩ := (decCheck_eq_some_iff _ n).1 (decCheck_encNibble n)
  refine ⟨high, ?_, decCheck_encNibble n⟩
  calc lowNibble (encNibble n)
      = lowNibble (encNibble n) ^^^ NIBBLE_MASK ^^^ NIBBLE_MASK := by
        rw [BitVec.xor_assoc, BitVec.xor_self, BitVec.xor_zero]
    _ = n ^^^ NIBBLE_MASK := by rw [← low]

theorem joinNibbles_halves (b : Byte) : joinNibbles (highNibble b) (lowNibble b) = b :=
  zext8_high_add_low b

/-- Settles O42: each half travels as its codeword, and the decoder joins the two halves. -/
theorem byteCodecInverts : Obligations.ByteCodecInverts := by
  refine fun b => ⟨_, _, rfl, decCheck_encNibble _, decCheck_encNibble _, ?_⟩
  simp [decByte, joinNibbles_halves]

namespace Machine

/-- Settles O44: one changed bit of a codeword gives an INVALID byte, which each of the three positions drops. -/
theorem flippedBitInCodewordIsRejected : Obligations.FlippedBitInCodewordIsRejected := by
  intro n k s hk h
  rw [classify_flip (invalidByte_encNibble n) hk]
  rcases h with h | h | h
  · exact exec_nonCodeword (.inl h) (.inr (.inr ⟨_, rfl⟩))
  · exact exec_invalid_waitByteHigh h _
  · exact exec_nonCodeword (.inr h) (.inr (.inr ⟨_, rfl⟩))

/-- Settles O49: both frames encode and check the same bytes, so all they have before the end byte and the CRC after it
agree. -/
theorem tagIsMarkedByEndByteAlone : Obligations.TagIsMarkedByEndByteAlone := by
  refine fun d p v => ⟨START :: frameCodewords d p (some v),
    crc8 CRC_INIT ([zext8 d] ++ p ++ tagBytes (some v)), frame_eq d p (some v), ?_⟩
  rw [frame_eq]
  simp [frameCodewords, endByte, tagBytes, tagHigh, tagLow]

end Machine

end Sys2Proof
end

section
/-! The CRC as a linear map (40_codec.md R44, R51). One byte XORs into the register and then eight bit steps of the
whole-byte form act on it; a bit step is linear over XOR and has no kernel, and so has everything built from it. -/

namespace Sys2Proof

namespace Codec

/-! ### One byte -/

/-- One bit step of the whole-byte form: shift right, feed back if a 1 left (40_codec.md R44). -/
def crcShift (r : Byte) : Byte := if r.getLsbD 0 = true then (r >>> 1) ^^^ CRC_FEEDBACK else r >>> 1

/-- A bit-serial step on register and byte is a whole-byte step on their XOR. -/
theorem crcShift_xor_byte (c x : Byte) :
    (if (c ^^^ x).getLsbD 0 then (c >>> 1) ^^^ CRC_FEEDBACK else c >>> 1) ^^^ (x >>> 1) = crcShift (c ^^^ x) := by
  unfold crcShift
  rw [BitVec.ushiftRight_xor_distrib]
  split
  · rw [BitVec.xor_assoc, BitVec.xor_assoc, BitVec.xor_comm CRC_FEEDBACK]
  · rfl

/-- `k` bit-serial steps leave in the register, up to what is left of the byte, `k` whole-byte steps of the XOR. -/
theorem crcBits_xor (k : Nat) (c x : Byte) : crcBits k c x ^^^ (x >>> k) = crcShift^[k] (c ^^^ x) := by
  induction k generalizing c x with
  | zero => simp [crcBits]
  | succ k ih =>
    rw [crcBits, Function.iterate_succ_apply, ← crcShift_xor_byte, ← ih, Nat.add_comm, BitVec.shiftRight_add]

theorem crcByte_eq (c x : Byte) : crcByte c x = crcShift^[8] (c ^^^ x) := by
  rw [← crcBits_xor, BitVec.ushiftRight_eq_zero le_rfl, BitVec.xor_zero, crcByte]

/-- Two feedbacks cancel. -/
theorem crcShift_xor (a b : Byte) : crcShift (a ^^^ b) = crcShift a ^^^ crcShift b := by
  unfold crcShift
  rw [BitVec.ushiftRight_xor_distrib, BitVec.getLsbD_xor]
  cases a.getLsbD 0 <;> cases b.getLsbD 0
  case true.true =>
    calc (a >>> 1) ^^^ (b >>> 1)
        = (a >>> 1) ^^^ (b >>> 1) ^^^ (CRC_FEEDBACK ^^^ CRC_FEEDBACK) := by rw [BitVec.xor_self, BitVec.xor_zero]
      _ = (a >>> 1 ^^^ CRC_FEEDBACK) ^^^ (b >>> 1 ^^^ CRC_FEEDBACK) := by ac_rfl
  all_goals simp only [Bool.xor_false, Bool.xor_true, Bool.not_false, Bool.false_eq_true, if_true, if_false]
  all_goals ac_rfl

theorem crcShift_iterate_xor (k : Nat) (a b : Byte) : crcShift^[k] (a ^^^ b) = crcShift^[k] a ^^^ crcShift^[k] b := by
  induction k generalizing a b with
  | zero => rfl
  | succ k ih => simp only [Function.iterate_succ_apply, crcShift_xor, ih]

/-- Register and byte play the same part, and both enter linearly. -/
theorem crcByte_xor (c d x y : Byte) : crcByte (c ^^^ d) (x ^^^ y) = crcByte c x ^^^ crcByte d y := by
  rw [crcByte_eq, crcByte_eq, crcByte_eq, ← crcShift_iterate_xor]
  congr 1
  ac_rfl

theorem crcByte_self (c : Byte) : crcByte c c = 0 := by
  rw [crcByte_eq, BitVec.xor_self]
  decide

/-- A bit step has no kernel: the bit shifted out comes back in the feedback's highest bit. -/
theorem crcShift_injective : Function.Injective crcShift := by
  have kernel : ∀ r : Byte, crcShift r = 0 → r = 0 := by decide
  intro a b h
  refine BitVec.xor_eq_zero_iff.1 (kernel _ ?_)
  rw [crcShift_xor, h, BitVec.xor_self]
  rfl

theorem crcByte_inj_left {c d x : Byte} : crcByte c x = crcByte d x ↔ c = d := by
  rw [crcByte_eq, crcByte_eq, (crcShift_injective.iterate 8).eq_iff, BitVec.xor_left_inj]

theorem crcByte_inj_right {c x y : Byte} : crcByte c x = crcByte c y ↔ x = y := by
  rw [crcByte_eq, crcByte_eq, (crcShift_injective.iterate 8).eq_iff, BitVec.xor_right_inj]

/-! ### A sequence -/

theorem crc8_xor (c d : Byte) {p q : List Byte} (h : p.length = q.length) :
    crc8 (c ^^^ d) (List.zipWith (· ^^^ ·) p q) = crc8 c p ^^^ crc8 d q := by
  induction p generalizing c d q with
  | nil =>
    obtain rfl := List.length_eq_zero_iff.1 h.symm
    rfl
  | cons x p ih =>
    obtain ⟨y, q, rfl⟩ := List.exists_cons_of_length_eq_add_one h.symm
    rw [List.zipWith_cons_cons, crc8_cons, crc8_cons, crc8_cons, crcByte_xor, ih]
    simpa using h

theorem zipWith_xor_zeros (p : List Byte) : List.zipWith (· ^^^ ·) p (List.replicate p.length 0) = p := by
  induction p with
  | nil => rfl
  | cons x p ih => exact congrArg₂ List.cons BitVec.xor_zero ih

/-- Different registers stay different over the same bytes. -/
theorem crc8_inj_left {c d : Byte} (p : List Byte) : crc8 c p = crc8 d p ↔ c = d := by
  induction p generalizing c d with
  | nil => rfl
  | cons x p ih => rw [crc8_cons, crc8_cons, ih, crcByte_inj_left]

end Codec

open Codec

/-- Settles O37: eight bit-serial steps consume the whole byte. -/
theorem crcSerialEqualsWholeByteForm : Obligations.CrcSerialEqualsWholeByteForm := crcByte_eq

/-- Settles O38: the generator run on the rule's own examples. -/
theorem crcCornerCases : Obligations.CrcCornerCases := by
  refine ⟨crc8_nil, ?_⟩
  simp [crc8, crcByte, crcBits, CRC_FEEDBACK]

/-- Settles O39: linearity, its case of a sequence and zeros, and a register that meets itself. -/
theorem crcIsLinearWithZeroResidue : Obligations.CrcIsLinearWithZeroResidue := by
  refine ⟨fun a b h => ?_, fun s a => ?_, fun m => ?_⟩
  · exact crc8_xor 0 0 h
  · rw [← crc8_xor 0 s List.length_replicate.symm, zipWith_xor_zeros]
    exact congrArg (crc8 · a) BitVec.zero_xor.symm
  · rw [crc8_append, crc8_cons, crc8_nil, crcByte_self]

/-- Settles O40: the changed byte gives another register, which the bytes after it keep apart. -/
theorem crcDetectsAnyOneByteChange : Obligations.CrcDetectsAnyOneByteChange := by
  have : Finite Byte := Finite.of_injective BitVec.toFin fun _ _ => BitVec.eq_of_toFin_eq
  have inj : Function.Injective fun b : Byte => crc8 0 [b] := fun _ _ => crcByte_inj_right.1
  refine ⟨Finite.injective_iff_bijective.1 inj, fun s x y a b hne h => hne ?_⟩
  rwa [crc8_append, crc8_append, crc8_cons, crc8_cons, crc8_inj_left, crcByte_inj_right] at h

end Sys2Proof
end

section
/-! What every step keeps (10_state.md R16, R19, R21): the parameters, the running CRC, the bound on messages; the same
at reset; and the fetch of the next event (R18). -/

namespace Sys2Proof.Machine

/-! ### The fetch -/

theorem fetchWordByte_eight (w : Nat) : fetchWordByte 8 w = BitVec.ofNat 8 w := by
  apply BitVec.eq_of_toNat_eq
  simp [fetchWordByte]

/-- Settles O8: one equation of the step for each kind of event; a well-formed instruction is the class of its byte. -/
theorem stepRunsDecodedInstruction : Obligations.StepRunsDecodedInstruction := by
  refine ⟨fun i s rest hi h => ?_, fun r s rest => step_send, fun s => step_nil, fun s w => ?_⟩
  · rw [step_rxByte h, classify_byte hi]
  · rw [← fetchWordByte_eight]
    exact step_rxByte rfl

/-! ### Reset -/

/-- Settles O1: by the definition of the state after reset. -/
theorem freshInstanceWaitsForStart : Obligations.FreshInstanceWaitsForStart :=
  ⟨rfl, fun _ => ⟨rfl, rfl, fun _ => rfl, rfl, rfl, rfl⟩⟩

/-- Settles O2: after reset the receiver is in no receiving position and has emitted nothing. -/
theorem freshInstanceMeetsInvariants : Obligations.FreshInstanceMeetsInvariants :=
  fun c => ⟨State.inv_resetWith c, nofun, nofun⟩

variable {i : Instr} {s t : State}

/-! ### The parameters -/

theorem Effect.cfg_eq (h : Effect i s t) : t.cfg = s.cfg := by
  cases h <;> rfl

theorem step_cfg (h : step s = .next t) : t.cfg = s.cfg := by
  rcases step_cases h with ⟨-, rfl⟩ | ⟨b, rest, -, heff⟩ | ⟨r, rest, -, rfl⟩
  · rfl
  · exact heff.cfg_eq
  · obtain ⟨x, hx⟩ := State.send_eq r { s with input := rest }
    rw [hx]

/-- Settles O5: by induction on the number of steps. -/
theorem parametersNeverChange : Obligations.ParametersNeverChange := by
  intro k
  induction k with
  | zero => intro s t h; exact congrArg State.cfg (Host.Outcome.next.inj h).symm
  | succ k ih =>
    intro s t h
    obtain ⟨u, hu⟩ := step_next s
    rw [runSteps_succ_of_next hu] at h
    exact (ih u t h).trans (step_cfg hu)

/-! ### The running CRC -/

/-- Neither the position nor the events take part in the computed CRC. -/
theorem State.CrcRunInv.of_receiver_eq (hs : s.CrcRunInv) (hr : t.st.receiving = true → s.st.receiving = true)
    (hcfg : t.cfg = s.cfg) (hdest : t.dest = s.dest) (hlen : t.len = s.len) (hrun : t.crcRun = s.crcRun)
    (hbuf : ∀ j, j < s.len → Memory.read t.buf j = Memory.read s.buf j) : t.CrcRunInv := by
  intro h
  rw [State.rxCrc_congr hcfg hdest hlen hbuf, hrun]
  exact hs (hr h)

theorem State.writeByte_read_same {s : State} {i : Nat} (hi : i < s.cfg.bufCap) (v : Byte) :
    Memory.read (s.writeByte i v).buf i = some v := by
  rw [State.writeByte_read hi, if_pos rfl]

/-- Once the byte at `len` is written and counted, it stands after the bytes stored before. -/
theorem State.readSpan_store {s : State} (room : s.len < s.cfg.bufCap) (b : Byte) :
    ((s.writeByte s.len b).countByte b).readSpan (s.len + 1) = s.readSpan s.len ++ [b] := by
  have old : ((s.writeByte s.len b).countByte b).readSpan s.len = s.readSpan s.len :=
    State.readSpan_congr rfl fun j hj => State.writeByte_read_other s b hj.ne
  have new : ((s.writeByte s.len b).countByte b).readByte s.len = b :=
    State.readByte_of_read room (State.writeByte_read_same room b)
  rw [State.readSpan, List.range_succ, List.map_append, ← State.readSpan, old, List.map_singleton, new]

/-- A completed byte advances the computed CRC as it advances the running one (10_state.md R21). -/
theorem State.rxCrc_store {s : State} (room : s.len < s.cfg.bufCap) (b : Byte) :
    ((s.writeByte s.len b).countByte b).rxCrc = Codec.crc8 s.rxCrc [b] := by
  rw [State.rxCrc, State.countByte_len, State.writeByte_len, State.readSpan_store room, Codec.crc8_append]
  rfl

theorem Effect.keeps_crcRunInv (h : Effect i s t) (hs : s.Inv) (hc : s.CrcRunInv) : t.CrcRunInv := by
  cases h with
  | discarded => exact hc
  | dropped | restarted | delivered | deliveredTagged => exact nofun
  | accepted n => exact fun _ => rfl
  | ended hst | endedTagged hst =>
    exact hc.of_receiver_eq (fun _ => by rw [hst]; rfl) rfl rfl rfl rfl fun _ _ => rfl
  | storedHigh n hst =>
    exact hc.of_receiver_eq (fun _ => by rw [hst]; rfl) rfl rfl rfl rfl fun j hj =>
      State.writeByte_read_other s _ hj.ne
  | storedLow n hst =>
    intro _
    refine (State.rxCrc_store (hs.roomLow hst) _).trans ?_
    rw [hc (by rw [hst]; rfl)]
    rfl

/-- Settles O6: each effect of an instruction keeps the two CRCs together, and a send touches neither. -/
theorem stepKeepsRunningCrc : Obligations.StepKeepsRunningCrc := by
  intro s t hs hc h
  rcases step_cases h with ⟨-, rfl⟩ | ⟨b, rest, -, heff⟩ | ⟨r, rest, -, rfl⟩
  · exact hc
  · exact heff.keeps_crcRunInv (hs.of_receiver_eq rfl rfl rfl rfl rfl) hc
  · obtain ⟨x, hx⟩ := State.send_eq r { s with input := rest }
    rw [hx]
    exact hc

/-- Settles O24: the seed at the destination, and the completed byte, which is the one stored. -/
theorem runningCrcIsSeededAndAdvanced : Obligations.RunningCrcIsSeededAndAdvanced := by
  refine ⟨fun n s hst ha => ?_, fun n s hs hst => ?_⟩
  · rw [exec_data_waitDestinationId hst, State.takeDestination_accepted (addressed_iff.2 ha)]
    exact ⟨_, rfl, rfl⟩
  · rw [exec_data_waitByteLow hst, State.storeLow_eq]
    exact ⟨_, _, rfl, State.writeByte_read_same (hs.roomLow hst) _, rfl⟩

/-- Settles O25: the computed CRC reads the span of the stored cells. -/
theorem computedCrcCoversStoredBytes : Obligations.ComputedCrcCoversStoredBytes :=
  fun s hs hr => ⟨s.readSpan s.len, State.readSpan_length .., fun j hj => (hs.readSpan_stored hr le_rfl j hj).symm, rfl⟩

/-! ### The messages -/

/-- An untagged message passed the length test; a tagged one is two bytes shorter than a buffer of `BUF_CAP`. -/
theorem Effect.message_bounded (h : Effect i s t) (hs : s.Inv) :
    t.delivered = s.delivered ∨
    ∃ m : Message, t.delivered = s.delivered ++ [m] ∧ m.length = m.payload.length ∧
      m.length ≤ s.cfg.maxMessageSize := by
  cases h with
  | delivered _ _ hl => exact .inr ⟨_, rfl, (State.readSpan_length ..).symm, hl⟩
  | deliveredTagged hst =>
    have bound : s.len ≤ s.cfg.maxMessageSize + 2 := hs.lenBound (by rw [hst]; rfl)
    exact .inr ⟨_, rfl, (State.readSpan_length ..).symm, Nat.sub_le_of_le_add bound⟩
  | _ => exact .inl rfl

/-- Settles O7: only an instruction emits. -/
theorem stepEmitsAtMostOneBoundedMessage : Obligations.StepEmitsAtMostOneBoundedMessage := by
  intro s t hs h
  rcases step_cases h with ⟨-, rfl⟩ | ⟨b, rest, -, heff⟩ | ⟨r, rest, -, rfl⟩
  · exact .inl rfl
  · exact heff.message_bounded (hs.of_receiver_eq rfl rfl rfl rfl rfl)
  · obtain ⟨x, hx⟩ := State.send_eq r { s with input := rest }
    exact .inl (by rw [hx])

end Sys2Proof.Machine
end

section
/-! What one instruction leaves unchanged (20_memory.md R27; 10_state.md section 7), and what brings the receiver back
to `WaitStart` (60_exceptions.md R96). -/

namespace Sys2Proof.Machine

variable {i : Instr} {s t : State}

/-! ### The frames -/

theorem ne_dataInstr (hi : i.nibble? = none) (n : Nibble) : i ≠ dataInstr n := fun e => by simp [e] at hi

/-- Settles O34: such an instruction stores nothing, and it writes `len` and the messages only where it is the awaited
CRC. -/
theorem frameOfControlAndInvalidBytes : Obligations.FrameOfControlAndInvalidBytes := by
  intro i s t hi h
  cases exec_effect h with
  | accepted n _ hn | storedHigh n _ hn | storedLow n _ hn => exact absurd hn (ne_dataInstr hi n)
  | delivered hst hc =>
    exact ⟨rfl, rfl, rfl, rfl, rfl, fun _ => rfl, fun _ => rfl, fun no => absurd ⟨.inl hst, hc⟩ no⟩
  | deliveredTagged hst hc =>
    exact ⟨rfl, rfl, rfl, rfl, rfl, fun _ => rfl, fun no => absurd ⟨hst, hc⟩ no, fun no => absurd ⟨.inr hst, hc⟩ no⟩
  | discarded | dropped | restarted | ended | endedTagged =>
    exact ⟨rfl, rfl, rfl, rfl, rfl, fun _ => rfl, fun _ => rfl, fun _ => rfl⟩

/-- Settles O35: a nibble is a destination, a high half or a low half, and each writes its own registers; as an awaited
CRC its byte emits. -/
theorem frameOfDataBytes : Obligations.FrameOfDataBytes := by
  intro n s t h
  cases exec_effect h with
  | accepted m hst =>
    exact ⟨rfl, rfl, rfl, fun _ _ => rfl, fun _ _ _ => rfl, fun no => absurd hst no, fun no => absurd hst no,
      fun no => absurd hst no, fun _ => rfl⟩
  | storedHigh m hst =>
    exact ⟨rfl, rfl, rfl, fun _ => State.writeByte_read_other s _, fun no => absurd hst no, fun _ => rfl,
      fun _ _ => rfl, fun _ _ _ => rfl, fun _ => rfl⟩
  | storedLow m hst =>
    exact ⟨rfl, rfl, rfl, fun _ => State.writeByte_read_other s _, fun _ no => absurd hst no, fun _ => rfl,
      fun _ no => absurd hst no, fun _ no => absurd hst no, fun _ => rfl⟩
  | delivered hst hc =>
    exact ⟨rfl, rfl, rfl, fun _ _ => rfl, fun _ _ _ => rfl, fun _ => rfl, fun _ _ => rfl, fun _ _ _ => rfl,
      fun no => absurd ⟨.inl hst, hc⟩ no⟩
  | deliveredTagged hst hc =>
    exact ⟨rfl, rfl, rfl, fun _ _ => rfl, fun _ _ _ => rfl, fun _ => rfl, fun _ _ => rfl,
      fun _ _ no => absurd ⟨hst, hc⟩ no, fun no => absurd ⟨.inr hst, hc⟩ no⟩
  | discarded | dropped | restarted | ended | endedTagged =>
    exact ⟨rfl, rfl, rfl, fun _ _ => rfl, fun _ _ _ => rfl, fun _ => rfl, fun _ _ => rfl, fun _ _ _ => rfl,
      fun _ => rfl⟩

/-! ### Without a cause a frame goes on or is delivered -/

theorem start_goes_on (hst : s.st.classified = true) (h : exec .start s = .next t) : t.st ≠ .waitStart := by
  rw [exec_start_of_classified hst] at h
  rw [State.restart_inv h]
  exact nofun

/-- At the destination only an addressed codeword and START have no cause. -/
theorem goes_on_waitDestinationId (hst : s.st = .waitDestinationId) (hd : dropCause i s = none)
    (h : exec i s = .next t) : t.st ≠ .waitStart := by
  rcases i.class_cases with rfl | rfl | rfl | ⟨n, rfl⟩ | ⟨w, rfl⟩
  case inl => exact start_goes_on (by rw [hst]; rfl) h
  case inr.inr.inr.inl =>
    have ha : s.cfg.myId = 0 ∨ n = 0 ∨ n = s.cfg.myId := by
      by_contra foreign
      simp only [dropCause, hst, nibble?_dataInstr, if_neg foreign, reduceCtorEq] at hd
    rw [exec_data_waitDestinationId hst, State.takeDestination_accepted (addressed_iff.2 ha)] at h
    obtain rfl := Host.Outcome.next.inj h
    exact nofun
  all_goals simp [dropCause, hst, Instr.nibble?] at hd

/-- At a byte boundary START and END have no cause, END_TAG with two stored bytes has none, nor has a codeword with room
for it. -/
theorem goes_on_waitByteHigh (hst : s.st = .waitByteHigh) (hd : dropCause i s = none)
    (h : exec i s = .next t) : t.st ≠ .waitStart := by
  rcases i.class_cases with rfl | rfl | rfl | ⟨n, rfl⟩ | ⟨w, rfl⟩
  · exact start_goes_on (by rw [hst]; rfl) h
  · rw [exec_end_waitByteHigh hst] at h
    obtain rfl := Host.Outcome.next.inj h
    exact nofun
  · have two : 1 < s.len := by simpa [dropCause, hst, Instr.nibble?] using hd
    rw [exec_endTag_waitByteHigh hst, State.endTagged_next two] at h
    obtain rfl := Host.Outcome.next.inj h
    exact nofun
  · have room : s.len < s.cfg.bufCap := by simpa [dropCause, hst] using hd
    rw [exec_data_waitByteHigh hst, State.storeHigh_next n room] at h
    obtain rfl := Host.Outcome.next.inj h
    exact nofun
  · simp [dropCause, hst, Instr.nibble?] at hd

/-- Inside a byte only START and a codeword have no cause. -/
theorem goes_on_waitByteLow (hst : s.st = .waitByteLow) (hd : dropCause i s = none)
    (h : exec i s = .next t) : t.st ≠ .waitStart := by
  rcases i.class_cases with rfl | rfl | rfl | ⟨n, rfl⟩ | ⟨w, rfl⟩
  case inl => exact start_goes_on (by rw [hst]; rfl) h
  case inr.inr.inr.inl =>
    rw [exec_data_waitByteLow hst, State.storeLow_eq] at h
    obtain rfl := Host.Outcome.next.inj h
    exact nofun
  all_goals simp [dropCause, hst, Instr.nibble?] at hd

/-- While a CRC is awaited there is no cause where a START restarts and where a message is delivered. -/
theorem restarts_or_delivers (hst : s.st = .waitCrc ∨ s.st = .waitCrcWithTag) (hd : dropCause i s = none)
    (h : exec i s = .next t) : t.st ≠ .waitStart ∨ ∃ m, t.delivered = s.delivered ++ [m] := by
  by_cases hc : i.byte = s.rxCrc
  · right
    rcases hst with hst | hst
    · have fits : s.len ≤ s.cfg.maxMessageSize := by simpa [dropCause, hst, hc] using hd
      rw [exec_waitCrc_deliver hst hc fits, State.deliver_eq] at h
      obtain rfl := Host.Outcome.next.inj h
      exact ⟨_, rfl⟩
    · rw [exec_waitCrcWithTag_deliver hst hc, State.deliverTagged_eq] at h
      obtain rfl := Host.Outcome.next.inj h
      exact ⟨_, rfl⟩
  · left
    have restarts : i.byte = START ∧ s.cfg.crcMismatchStart = true := by
      rcases hst with hst | hst <;> simpa [dropCause, hst, hc] using hd
    rw [exec_crcMismatch hst hc, State.crcMismatch_eq, if_pos restarts] at h
    obtain rfl := Host.Outcome.next.inj h
    exact nofun

/-- Settles O32: with a cause the instruction is the drop; without one, the position decides. -/
theorem waitStartOnlyByDropOrDelivery : Obligations.WaitStartOnlyByDropOrDelivery := by
  intro i s t h hs ht
  cases hd : dropCause i s with
  | some r =>
    rw [dropChangesPositionOnly i s r hd] at h
    obtain rfl := Host.Outcome.next.inj h
    exact .inl ⟨r, rfl, rfl⟩
  | none =>
    refine .inr ⟨rfl, ?_⟩
    cases hst : s.st with
    | waitStart => exact absurd hst hs
    | waitDestinationId => exact absurd ht (goes_on_waitDestinationId hst hd h)
    | waitByteHigh => exact absurd ht (goes_on_waitByteHigh hst hd h)
    | waitByteLow => exact absurd ht (goes_on_waitByteLow hst hd h)
    | waitCrc => exact (restarts_or_delivers (.inl hst) hd h).resolve_left (not_not_intro ht)
    | waitCrcWithTag => exact (restarts_or_delivers (.inr hst) hd h).resolve_left (not_not_intro ht)

end Sys2Proof.Machine
end

section
/-! Streams: a run over input bytes always has an end, only adds messages, passes over in `WaitStart` what is no START,
and does not depend on where it is cut into passes nor on the sends between its bytes. -/

namespace Sys2Proof.Machine

/-! ### Runs over a stream -/

theorem feed_next (bs : List Byte) (s : State) : ∃ t, feed bs s = .next t := by
  induction bs generalizing s with
  | nil => exact ⟨s, rfl⟩
  | cons b bs ih =>
    obtain ⟨u, hu⟩ := exec_next (classify b) s
    rw [feed_cons_of_next hu]
    exact ih u

/-- A run over two streams passes through a state between them. -/
theorem feed_append_inv {as bs : List Byte} {s t : State} (h : feed (as ++ bs) s = .next t) :
    ∃ u, feed as s = .next u ∧ feed bs u = .next t := by
  obtain ⟨u, hu⟩ := feed_next as s
  exact ⟨u, hu, by rwa [feed_append hu] at h⟩

theorem feed_cons_inv {b : Byte} {bs : List Byte} {s t : State} (h : feed (b :: bs) s = .next t) :
    ∃ u, exec (classify b) s = .next u ∧ feed bs u = .next t := by
  obtain ⟨u, hu⟩ := exec_next (classify b) s
  exact ⟨u, hu, by rwa [feed_cons_of_next hu] at h⟩

theorem feed_singleton {b : Byte} {s t : State} : feed [b] s = .next t ↔ exec (classify b) s = .next t := by
  obtain ⟨u, hu⟩ := exec_next (classify b) s
  rw [feed_cons_of_next hu, feed_nil, hu]

/-- An emitted message stays (10_state.md R19). -/
theorem feed_delivered_grows {bs : List Byte} {s t : State} (h : feed bs s = .next t) :
    s.delivered <+: t.delivered := by
  induction bs generalizing s with
  | nil => rw [Host.Outcome.next.inj h]
  | cons b bs ih =>
    obtain ⟨u, hu, h⟩ := feed_cons_inv h
    refine List.IsPrefix.trans ?_ (ih h)
    rcases (exec_effect hu).delivered_cases with hd | ⟨m, hd⟩ <;> rw [hd]
    exact ⟨[m], rfl⟩

/-- A stream without START leaves a receiver in `WaitStart` as it is (41_receiver.md R57). -/
theorem feed_waitStart {bs : List Byte} {s : State} (hst : s.st = .waitStart) (hbs : START ∉ bs) :
    feed bs s = .next s := by
  induction bs with
  | nil => rfl
  | cons b bs ih =>
    obtain ⟨hb, hbs⟩ := List.ne_and_not_mem_of_not_mem_cons hbs
    have passed : exec (classify b) s = .next s :=
      waitStartIgnoresAllButStart _ s (mt (classify_eq_start_iff b).1 hb.symm) hst
    rw [feed_cons_of_next passed, ih hbs]

/-- Settles O33: the run over the stream is the fold of exec over its bytes. -/
theorem onlyStartEndsWaiting : Obligations.OnlyStartEndsWaiting := by
  intro s bs rest hst hbs h
  rw [runSteps_rxBytes h]
  exact feed_waitStart hst hbs

/-- A stream runs alike whatever is to come after it. -/
theorem feed_withInput {bs : List Byte} {s t : State} (h : feed bs s = .next t) (l : List Input) :
    feed bs { s with input := l } = .next { t with input := l } := by
  have edge := feed_withEdge l s.tx bs s
  rw [h, mapNext_next, ← (feed_keeps h).2.1] at edge
  rwa [← (feed_keeps h).2.1]

/-! ### Passes -/

/-- Settles O51: a pass and the idle polls after it end where the run over its bytes ends, whatever is to come. -/
theorem passBoundariesDoNotMatter : Obligations.PassBoundariesDoNotMatter := by
  intro s t as bs idle h
  obtain ⟨u, hu⟩ := feed_next as { s with input := [] }
  have hin := (feed_keeps hu).1
  have pass : runSteps as.length { s with input := rxBytes as } = .next u :=
    (runSteps_rxBytes (rest := []) (List.append_nil _).symm).trans hu
  have same : u = t := by
    rw [runSteps_add pass, runSteps_idle hin] at h
    exact Host.Outcome.next.inj h
  have first : runSteps as.length { s with input := rxBytes (as ++ bs) } = .next { t with input := rxBytes bs } := by
    rw [runSteps_rxBytes (rest := rxBytes bs) List.map_append, ← same]
    exact feed_withInput hu (rxBytes bs)
  exact runSteps_add first bs.length

/-! ### Sends between the bytes -/

/-- What a request writes does not depend on the state it finds (42_sender.md R93). -/
theorem State.send_appends (r : SendRequest) : ∃ x, ∀ s : State, s.send r = { s with tx := s.tx ++ x } := by
  obtain ⟨d, p, g⟩ := r
  match p with
  | .bytes p => exact ⟨_, State.sendBytes_eq_frame d p g⟩
  | .null 0 => exact ⟨_, State.sendBytes_eq_frame d [] g⟩
  | .null (_ + 1) | .negative _ => exact ⟨[], fun s => by rw [List.append_nil]; rfl⟩

/-- Settles O50: an instruction commutes with what a send does to the byte sink. -/
theorem sendAndReceiveCommute : Obligations.SendAndReceiveCommute := by
  intro s r b rest
  obtain ⟨x, hx⟩ := State.send_appends r
  obtain ⟨u, hu⟩ := exec_next (classify b) s
  have byte (l : List Input) (y : List Byte) : exec (classify b) (s.withEdge l y) = .next (u.withEdge l y) := by
    rw [exec_withEdge, hu, mapNext_next]
  refine ⟨u.withEdge rest (s.tx ++ x), ?_, ?_⟩
  · have sent := step_send (s := { s with input := .send r :: .rxByte b :: rest }) rfl
    rw [hx] at sent
    have ran : step { s with input := .rxByte b :: rest, tx := s.tx ++ x } = .next (u.withEdge rest (s.tx ++ x)) :=
      (step_rxByte rfl).trans (byte rest (s.tx ++ x))
    rw [runSteps_succ_of_next sent, runSteps_succ_of_next ran, runSteps_zero]
  · have ran : step { s with input := .rxByte b :: .send r :: rest } = .next (u.withEdge (.send r :: rest) s.tx) :=
      (step_rxByte rfl).trans (byte (.send r :: rest) s.tx)
    have sent := step_send (s := u.withEdge (.send r :: rest) s.tx) rfl
    rw [hx] at sent
    rw [runSteps_succ_of_next ran, runSteps_succ_of_next sent]
    rfl

end Sys2Proof.Machine
end

section
/-! What the receiver does on the parts of a frame (41_receiver.md R81): the start byte, the codewords, the end byte and
the CRC. -/

namespace Sys2Proof.Machine

open Codec

variable {s t u : State} {d n : Nibble} {p raw : List Byte} {g : Option Tag}

/-! ### One raw byte -/

/-- A second write to a cell replaces the first. -/
theorem Memory.write_write (m : Memory) (i : Nat) (v w : Byte) :
    Memory.write (Memory.write m i v) i w = Memory.write m i w := by
  induction m with
  | nil => simp [Memory.write]
  | cons c m ih =>
    obtain ⟨a, x⟩ := c
    by_cases hlt : i < a
    · simp [Memory.write, hlt]
    · by_cases heq : a = i
      · simp [Memory.write, heq]
      · simp [Memory.write, hlt, heq, ih]

/-- The half stored first leaves no trace in the completed cell. -/
theorem State.store_after_half (s : State) (v b : Byte) (q : Position) :
    (((s.writeByte s.len v).goTo q).writeByte s.len b).countByte b = ((s.writeByte s.len b).countByte b).goTo q := by
  by_cases room : s.len < s.cfg.bufCap
  · simp [State.writeByte, State.goTo, State.countByte, room, Memory.write_write]
  · simp [State.writeByte, State.goTo, State.countByte, room]

/-- With room, the two codewords of a raw byte store it (41_receiver.md R66, R70). -/
theorem feed_encByte (hst : s.st = .waitByteHigh) (room : s.len < s.cfg.bufCap) (b : Byte) :
    feed (encByte b) s = .next (((s.writeByte s.len b).countByte b).goTo .waitByteHigh) := by
  have high : exec (classify (encNibble (highNibble b))) s =
      .next ((s.writeByte s.len (highHalf (highNibble b))).goTo .waitByteLow) := by
    rw [classify_encNibble, exec_data_waitByteHigh hst, State.storeHigh_next _ room]
  have half : ((s.writeByte s.len (highHalf (highNibble b))).goTo .waitByteLow).readByte s.len =
      highHalf (highNibble b) :=
    State.readByte_of_read room (State.writeByte_read_same room _)
  have whole : addLow (highHalf (highNibble b)) (lowNibble b) = b := zext8_high_add_low b
  rw [encByte, feed_cons_of_next high, feed_singleton, classify_encNibble, exec_data_waitByteLow rfl, State.storeLow_eq,
    State.goTo_len, State.writeByte_len, half, whole, State.store_after_half]
  rfl

/-! ### What is stored -/

/-- The receiver keeps the destination `d` and, as its complete bytes, `raw`. -/
structure State.Stored (s : State) (d : Nibble) (raw : List Byte) : Prop where
  dest : s.dest = d
  len : s.len = raw.length
  bytes : s.readSpan raw.length = raw

theorem State.Stored.rxCrc (h : s.Stored d raw) : s.rxCrc = crc8 CRC_INIT (zext8 d :: raw) := by
  rw [State.rxCrc_eq, h.dest, h.len, h.bytes]

/-- What is stored is in the destination, the count and the cells below it. -/
theorem State.Stored.congr (h : s.Stored d raw) (hcfg : t.cfg = s.cfg) (hdest : t.dest = s.dest) (hlen : t.len = s.len)
    (hbuf : ∀ j, j < s.len → Memory.read t.buf j = Memory.read s.buf j) : t.Stored d raw where
  dest := hdest.trans h.dest
  len := hlen.trans h.len
  bytes := (State.readSpan_congr hcfg fun j hj => hbuf j (h.len ▸ hj)).trans h.bytes

theorem State.Stored.goTo (h : s.Stored d raw) (q : Position) : (s.goTo q).Stored d raw :=
  h.congr rfl rfl rfl fun _ _ => rfl

/-- An accepted destination comes before every byte. -/
theorem State.stored_beginFrame (s : State) (n : Nibble) : (s.beginFrame n).Stored n [] :=
  ⟨rfl, rfl, rfl⟩

/-- A half in the pending slot is not stored. -/
theorem State.Stored.writeHalf (h : s.Stored d raw) (v : Byte) : (s.writeByte s.len v).Stored d raw :=
  h.congr rfl rfl rfl fun _ hj => State.writeByte_read_other s v hj.ne

theorem State.Stored.store (h : s.Stored d raw) (room : s.len < s.cfg.bufCap) (b : Byte) :
    ((s.writeByte s.len b).countByte b).Stored d (raw ++ [b]) where
  dest := h.dest
  len := by simp [h.len]
  bytes := by
    rw [List.length_append, List.length_singleton, ← h.len, State.readSpan_store room, h.len, h.bytes]

/-- Encoded bytes for which there is room are stored after the ones before. -/
theorem feed_encoded (hst : s.st = .waitByteHigh) (h : s.Stored d raw) (hl : raw.length + p.length ≤ s.cfg.bufCap) :
    ∃ t, feed (p.flatMap encByte) s = .next t ∧ t.st = .waitByteHigh ∧ t.Stored d (raw ++ p) := by
  induction p generalizing s raw with
  | nil => exact ⟨s, rfl, hst, by rwa [List.append_nil]⟩
  | cons b p ih =>
    rw [List.length_cons] at hl
    have room : s.len < s.cfg.bufCap := by rw [h.len]; omega
    have stored := (h.store room b).goTo .waitByteHigh
    obtain ⟨t, ht, htst, hts⟩ := ih rfl stored (by simp; omega)
    refine ⟨t, ?_, htst, by simpa using hts⟩
    rw [List.flatMap_cons, feed_append (feed_encByte hst room b), ht]

/-! ### The codewords of a frame -/

/-- The codewords of an addressed frame that fits into the buffer are stored. -/
theorem feed_frameCodewords (hst : s.st = .waitDestinationId) (ha : addressed s.cfg d = true)
    (hl : (p ++ tagBytes g).length ≤ s.cfg.bufCap) :
    ∃ t, feed (frameCodewords d p g) s = .next t ∧ t.st = .waitByteHigh ∧ t.Stored d (p ++ tagBytes g) := by
  have accepted : exec (classify (encNibble d)) s = .next ((s.beginFrame d).goTo .waitByteHigh) := by
    rw [classify_encNibble, exec_data_waitDestinationId hst, State.takeDestination_accepted ha]
  rw [frameCodewords, feed_cons_of_next accepted]
  exact feed_encoded rfl ((State.stored_beginFrame s d).goTo _) (by simpa using hl)

/-- No codeword is a start byte. -/
theorem start_not_mem_encoded (bs : List Byte) : START ∉ bs.flatMap encByte := fun h => by
  obtain ⟨n, hn⟩ := codeword_of_mem_encoded h
  exact encNibble_ne_start n hn.symm

theorem start_not_mem_frameCodewords : START ∉ frameCodewords d p g := fun h => by
  obtain ⟨n, hn⟩ := codeword_of_mem_frameCodewords h
  exact encNibble_ne_start n hn.symm

theorem start_ne_endByte (g : Option Tag) : START ≠ endByte g := by
  cases g <;> exact nofun

/-- The codewords of a frame for another receiver are lost (41_receiver.md R60). -/
theorem feed_frameCodewords_foreign (hst : s.st = .waitDestinationId) (ha : ¬ addressed s.cfg d = true) :
    feed (frameCodewords d p g) s = .next (s.goTo .waitStart) := by
  have dropped : exec (classify (encNibble d)) s = .next (s.goTo .waitStart) := by
    rw [classify_encNibble, exec_data_waitDestinationId hst, State.takeDestination_foreign ha, State.drop]
  rw [frameCodewords, feed_cons_of_next dropped, feed_waitStart rfl (start_not_mem_encoded _)]

/-- A high half for which the buffer has no room drops the frame, and the codewords after it pass over (41_receiver.md
R67). -/
theorem feed_encoded_full (hst : s.st = .waitByteHigh) (full : ¬ s.len < s.cfg.bufCap) (b : Byte) (bs : List Byte) :
    feed ((b :: bs).flatMap encByte) s = .next (s.goTo .waitStart) := by
  have dropped : exec (classify (encNibble (highNibble b))) s = .next (s.goTo .waitStart) := by
    rw [classify_encNibble, exec_data_waitByteHigh hst, State.storeHigh_full _ full]
  have after : START ∉ encNibble (lowNibble b) :: bs.flatMap encByte := fun h =>
    start_not_mem_encoded (b :: bs) (List.mem_cons_of_mem _ h)
  rw [List.flatMap_cons, encByte, List.cons_append, feed_cons_of_next dropped]
  exact feed_waitStart rfl after

/-- The codewords of an addressed frame that does not fit into the buffer are lost. -/
theorem feed_frameCodewords_overflow (hst : s.st = .waitDestinationId) (ha : addressed s.cfg d = true)
    (hl : s.cfg.bufCap < (p ++ tagBytes g).length) :
    ∃ t, feed (frameCodewords d p g) s = .next t ∧ t.st = .waitStart := by
  have left : 0 < ((p ++ tagBytes g).drop s.cfg.bufCap).length := by rw [List.length_drop]; omega
  obtain ⟨b, bs, hb⟩ := List.exists_cons_of_length_pos left
  have cut : frameCodewords d p g =
      frameCodewords d ((p ++ tagBytes g).take s.cfg.bufCap) none ++ (b :: bs).flatMap encByte := by
    rw [← hb, frameCodewords, frameCodewords, List.cons_append, ← List.flatMap_append, tagBytes, List.append_nil,
      List.take_append_drop]
  have fits : ((p ++ tagBytes g).take s.cfg.bufCap ++ tagBytes none).length = s.cfg.bufCap := by
    rw [tagBytes, List.append_nil, List.length_take, min_eq_left hl.le]
  obtain ⟨u, hu, hust, stored⟩ := feed_frameCodewords hst ha fits.le
  have full : ¬ u.len < u.cfg.bufCap := by
    rw [stored.len, fits, (feed_keeps hu).2.2]
    exact lt_irrefl _
  exact ⟨_, by rw [cut, feed_append hu, feed_encoded_full hust full], rfl⟩

/-! ### What emits nothing -/

/-- In a classified position nothing is emitted. -/
theorem exec_classified_quiet {i : Instr} (h : exec i s = .next t) (hcl : s.st.classified = true) :
    t.delivered = s.delivered := by
  cases exec_effect h with
  | delivered hst | deliveredTagged hst => simp [hst, Position.classified] at hcl
  | _ => rfl

/-- From a classified position codewords lead to a classified position. -/
theorem exec_data_classified (h : exec (dataInstr n) s = .next t) (hcl : s.st.classified = true) :
    t.st.classified = true := by
  cases exec_effect h with
  | discarded => exact hcl
  | ended _ hi | endedTagged _ hi => exact absurd hi.symm (ne_dataInstr rfl n)
  | _ => rfl

theorem feed_codewords_quiet {bs : List Byte} (h : feed bs s = .next t) (hcl : s.st.classified = true)
    (hbs : ∀ w ∈ bs, ∃ n, w = encNibble n) : t.st.classified = true ∧ t.delivered = s.delivered := by
  induction bs generalizing s with
  | nil => obtain rfl := Host.Outcome.next.inj h; exact ⟨hcl, rfl⟩
  | cons b bs ih =>
    obtain ⟨u, hu, hrest⟩ := feed_cons_inv h
    obtain ⟨n, rfl⟩ := hbs b (List.mem_cons_self ..)
    rw [classify_encNibble] at hu
    obtain ⟨htcl, htd⟩ := ih hrest (exec_data_classified hu hcl) fun w hw => hbs w (List.mem_cons_of_mem _ hw)
    exact ⟨htcl, htd.trans (exec_classified_quiet hu hcl)⟩

/-- Once a frame is lost, what is left of it emits nothing: only its last byte, the CRC, can be a START. -/
theorem feed_lost {bs : List Byte} {c : Byte} (h : feed (bs ++ [c]) s = .next t) (hst : s.st = .waitStart)
    (hbs : START ∉ bs) : t.delivered = s.delivered := by
  rw [feed_append (feed_waitStart hst hbs), feed_singleton] at h
  exact exec_classified_quiet h (by rw [hst]; rfl)

end Sys2Proof.Machine
end

section
/-! Whole frames (41_receiver.md R81, R83; 42_sender.md R92; 70_reset_and_hazards.md R126): which are delivered and
which are lost. -/

namespace Sys2Proof.Machine

open Codec

variable {s t u : State} {d : Nibble} {p : List Byte} {g : Option Tag} {rest : List Input}

/-! ### A run cut in two -/

/-- A run over two streams, with the state between them. -/
theorem run_append {as bs : List Byte} (h : s.input = rxBytes (as ++ bs) ++ rest) :
    ∃ u t, feed as { s with input := rxBytes bs ++ rest } = .next u ∧ runSteps as.length s = .next u ∧
      feed bs { u with input := rest } = .next t ∧ runSteps (as ++ bs).length s = .next t ∧
      t.input = rest ∧ t.tx = s.tx ∧ t.cfg = s.cfg := by
  have first : s.input = rxBytes as ++ (rxBytes bs ++ rest) := by simpa [rxBytes] using h
  obtain ⟨u, hu⟩ := feed_next as { s with input := rxBytes bs ++ rest }
  obtain ⟨hin, htx, hcfg⟩ := feed_keeps hu
  obtain ⟨t, ht⟩ := feed_next bs { u with input := rest }
  obtain ⟨gin, gtx, gcfg⟩ := feed_keeps ht
  have run_first := (runSteps_rxBytes first).trans hu
  refine ⟨u, t, hu, run_first, ht, ?_, gin, gtx.trans htx, gcfg.trans hcfg⟩
  rw [List.length_append, runSteps_add run_first, runSteps_rxBytes hin, ht]

/-- A run that emits nothing has emitted nothing at any earlier point. -/
theorem feed_quiet_before {as bs : List Byte} (h : feed (as ++ bs) s = .next t) (hd : t.delivered = s.delivered) :
    ∃ u, feed as s = .next u ∧ u.delivered = s.delivered := by
  obtain ⟨u, hu, ht⟩ := feed_append_inv h
  have later := feed_delivered_grows ht
  rw [hd] at later
  exact ⟨u, hu, later.eq_of_length_le (feed_delivered_grows hu).length_le⟩

theorem run_quiet_before {bs cs : List Byte} (hin : s.input = rxBytes (bs ++ cs) ++ rest)
    (quiet : ∀ l, ∃ t, feed bs { s with input := l } = .next t ∧ t.delivered = s.delivered) {j : Nat}
    (hj : j ≤ bs.length) : ∃ u, runSteps j s = .next u ∧ u.delivered = s.delivered := by
  have cut : bs.take j ++ (bs.drop j ++ cs) = bs ++ cs := by rw [← List.append_assoc, List.take_append_drop]
  rw [← cut] at hin
  obtain ⟨u, -, hu, run, -⟩ := run_append hin
  obtain ⟨t, ht, td⟩ := quiet (rxBytes (bs.drop j ++ cs) ++ rest)
  rw [← List.take_append_drop j bs] at ht
  obtain ⟨v, hv, vd⟩ := feed_quiet_before ht td
  rw [List.take_append_drop, hu] at hv
  obtain rfl := Host.Outcome.next.inj hv
  rw [List.length_take, min_eq_left hj] at run
  exact ⟨u, run, vd⟩

/-! ### The parts of a frame -/

/-- The last byte of a frame (30_encoding.md R32). -/
def frameCrc (d : Nibble) (p : List Byte) (g : Option Tag) : Byte := crc8 CRC_INIT ([zext8 d] ++ p ++ tagBytes g)

/-- Where the CRC of an untagged or tagged frame is awaited. -/
def crcPosition (g : Option Tag) : Position := if g.isSome then .waitCrcWithTag else .waitCrc

theorem frame_split (d : Nibble) (p : List Byte) (g : Option Tag) :
    frame d p g = (START :: frameCodewords d p g) ++ [endByte g, frameCrc d p g] := frame_eq d p g

/-- All but the last byte. -/
theorem frame_split_last (d : Nibble) (p : List Byte) (g : Option Tag) :
    frame d p g = (START :: frameCodewords d p g ++ [endByte g]) ++ [frameCrc d p g] := by
  simp [frame_split]

theorem start_not_mem_endByte (g : Option Tag) : START ∉ [endByte g] := fun h =>
  start_ne_endByte g (List.mem_singleton.1 h)

theorem start_not_mem_rest {cs : List Byte} (hcs : START ∉ cs) (g : Option Tag) : START ∉ cs ++ [endByte g] := fun h =>
  (List.mem_append.1 h).elim hcs (start_not_mem_endByte g)

/-- START begins a frame from a classified position, and while another CRC is awaited under `CRC_MISMATCH_START`. -/
theorem exec_start_begins (h : s.st.classified = true ∨ (s.cfg.crcMismatchStart = true ∧ s.rxCrc ≠ START)) :
    exec (classify START) s = .next (s.goTo .waitDestinationId) := by
  rw [classify_start]
  by_cases hcl : s.st.classified = true
  · exact exec_start_of_classified hcl
  · obtain ⟨restarts, hc⟩ := h.resolve_left hcl
    have hst : s.st = .waitCrc ∨ s.st = .waitCrcWithTag := by cases hst : s.st <;> simp_all [Position.classified]
    rw [startThatIsNotTheCrc s hst hc, if_pos restarts]
    rfl

theorem feed_start_inv {bs : List Byte} (h : feed (START :: bs) s = .next t) (hcl : s.st.classified = true) :
    feed bs (s.goTo .waitDestinationId) = .next t := by
  rwa [feed_cons_of_next (exec_start_begins (.inl hcl))] at h

/-- The end byte finds the stored bytes it needs (41_receiver.md R63, R64). -/
theorem exec_endByte (hst : s.st = .waitByteHigh) (h : s.Stored d (p ++ tagBytes g)) :
    exec (classify (endByte g)) s = .next (s.goTo (crcPosition g)) := by
  cases g with
  | none => exact exec_end_waitByteHigh hst
  | some v =>
    have two : 2 ≤ s.len := by rw [h.len, List.length_append]; exact Nat.le_add_left ..
    exact (exec_endTag_waitByteHigh hst).trans (State.endTagged_next two)

/-- A span begins with the shorter spans. -/
theorem State.readSpan_take (s : State) {k n : Nat} (h : k ≤ n) : (s.readSpan n).take k = s.readSpan k := by
  rw [State.readSpan, ← List.map_take, List.take_range, min_eq_left h, State.readSpan]

/-- Of stored bytes the last two are the tag (41_receiver.md R75). -/
theorem State.Stored.tagged {hi lo : Byte} (h : s.Stored d (p ++ [hi, lo])) :
    s.len - 2 = p.length ∧ s.readSpan p.length = p ∧ s.readTag p.length = joinTag hi lo := by
  have span : s.readSpan (p.length + 2) = p ++ [hi, lo] := by simpa using h.bytes
  have byte (j : Nat) (hj : j < p.length + 2) : (p ++ [hi, lo])[j]? = some (s.readByte j) := by
    rw [← span, State.readSpan_getElem? s hj]
  refine ⟨by simp [h.len], ?_, ?_⟩
  · rw [← State.readSpan_take s (Nat.le_add_right _ 2), span, List.take_left]
  · have first : hi = s.readByte p.length := by simpa using byte p.length (by omega)
    have second : lo = s.readByte (p.length + 1) := by simpa using byte (p.length + 1) (by omega)
    rw [State.readTag, first, second]

/-- The CRC of the stored frame delivers its message (41_receiver.md R72, R75). -/
theorem exec_frameCrc (hst : s.st = crcPosition g) (h : s.Stored d (p ++ tagBytes g))
    (hl : p.length ≤ s.cfg.maxMessageSize) :
    ∃ t, exec (classify (frameCrc d p g)) s = .next t ∧ t.st = .waitStart ∧
      t.delivered = s.delivered ++ [⟨p, p.length, g⟩] := by
  have hc : (classify (frameCrc d p g)).byte = s.rxCrc := by rw [byte_classify, h.rxCrc]; rfl
  cases g with
  | none =>
    have stored : s.Stored d p := by rwa [tagBytes, List.append_nil] at h
    refine ⟨_, exec_waitCrc_deliver hst hc (stored.len ▸ hl), rfl, ?_⟩
    rw [State.goTo_delivered, State.emit_delivered, stored.len, stored.bytes]
  | some v =>
    obtain ⟨hlen, payload, tag⟩ := State.Stored.tagged h
    refine ⟨_, exec_waitCrcWithTag_deliver hst hc, rfl, ?_⟩
    rw [State.goTo_delivered, State.emit_delivered, State.setLen_delivered, hlen, payload, tag, joinTag_halves]

/-- Up to its CRC an addressed frame that fits into the buffer emits nothing and is stored. -/
theorem feed_frame_body (hstart : s.st.classified = true ∨ (s.cfg.crcMismatchStart = true ∧ s.rxCrc ≠ START))
    (ha : addressed s.cfg d = true) (hl : (p ++ tagBytes g).length ≤ s.cfg.bufCap) :
    ∃ u, feed (START :: frameCodewords d p g ++ [endByte g]) s = .next u ∧ u.st = crcPosition g ∧
      u.Stored d (p ++ tagBytes g) ∧ u.delivered = s.delivered := by
  obtain ⟨u, hu, hust, stored⟩ := feed_frameCodewords (s := s.goTo .waitDestinationId) rfl ha hl
  have quiet := (feed_codewords_quiet hu rfl fun _ => codeword_of_mem_frameCodewords).2
  refine ⟨u.goTo (crcPosition g), ?_, rfl, stored.goTo _, quiet⟩
  rw [List.cons_append, feed_cons_of_next (exec_start_begins hstart), feed_append hu, feed_singleton]
  exact exec_endByte hust stored

theorem raw_length_le_bufCap {c : Config} (hl : p.length ≤ c.maxMessageSize) (g : Option Tag) :
    (p ++ tagBytes g).length ≤ c.bufCap := by
  rw [List.length_append, tagBytes_length, Config.bufCap]
  split <;> omega

/-- Settles O52: the body of the frame is stored without a message, and its CRC delivers it. -/
theorem addressedFrameRoundTrips : Obligations.AddressedFrameRoundTrips := by
  intro s d p g rest hin hl ha hstart
  have fits : (p ++ tagBytes g).length ≤ s.cfg.bufCap := raw_length_le_bufCap hl g
  have body (l : List Input) := feed_frame_body (s := { s with input := l }) hstart (addressed_iff.2 ha) fits
  rw [frame_split_last] at hin ⊢
  refine ⟨fun j hj => ?_, ?_⟩
  · refine run_quiet_before hin (fun l => ?_) (Nat.lt_succ_iff.1 (by simpa using hj))
    obtain ⟨u, hu, -, -, ud⟩ := body l
    exact ⟨u, hu, ud⟩
  · obtain ⟨u, t, hu, -, ht, run, tin, ttx, tcfg⟩ := run_append hin
    obtain ⟨u', hu', ust, stored, ud⟩ := body (rxBytes [frameCrc d p g] ++ rest)
    obtain rfl := Host.Outcome.next.inj (hu'.symm.trans hu)
    have ucfg : u'.cfg = s.cfg := (feed_keeps hu).2.2
    obtain ⟨t', ht', tst, td⟩ := exec_frameCrc (s := { u' with input := rest }) ust
      (stored.congr rfl rfl rfl fun _ _ => rfl) (ucfg ▸ hl)
    obtain rfl := Host.Outcome.next.inj (ht'.symm.trans (feed_singleton.1 ht))
    exact ⟨_, run, tst, td.trans (congrArg (· ++ _) ud), tin, ttx, tcfg⟩

/-! ### Lost frames -/

/-- Up to its CRC a frame for another receiver is passed over in `WaitStart`. -/
theorem feed_foreign_body (hcl : s.st.classified = true) (ha : ¬ addressed s.cfg d = true) :
    feed (START :: frameCodewords d p g ++ [endByte g]) s = .next (s.goTo .waitStart) := by
  have lost := feed_frameCodewords_foreign (s := s.goTo .waitDestinationId) (p := p) (g := g) rfl ha
  rw [List.cons_append, feed_cons_of_next (exec_start_begins (.inl hcl)), feed_append lost]
  exact feed_waitStart rfl (start_not_mem_endByte g)

/-- Settles O53: the destination is not accepted, so the CRC finds the receiver in `WaitStart`. -/
theorem foreignFrameGivesNoMessage : Obligations.ForeignFrameGivesNoMessage := by
  intro s d p g rest hin hcl hid hd hmine
  have ha : ¬ addressed s.cfg d = true := fun h => (addressed_iff.1 h).elim hid (·.elim hd hmine)
  rw [frame_split_last] at hin ⊢
  obtain ⟨u, t, hu, run, ht, run', tin, -⟩ := run_append hin
  rw [feed_foreign_body (s := { s with input := rxBytes [frameCrc d p g] ++ rest }) hcl ha] at hu
  obtain rfl := Host.Outcome.next.inj hu
  rw [List.length_append, List.length_singleton] at run' ⊢
  have td := exec_classified_quiet (feed_singleton.1 ht) rfl
  exact ⟨⟨_, run, rfl, rfl⟩, t, run', td, tin⟩

/-- What the receiver emits when a START is taken as the awaited CRC: the old frame's stored bytes, less the tag. -/
def OldMessage (s : State) (m : Message) : Prop :=
  m.payload.length = m.length ∧ s.len = m.length + (if m.tag.isSome then 2 else 0) ∧
    (∀ j, j < m.length → m.payload[j]? = Memory.read s.buf j) ∧
    ∀ v, m.tag = some v → ∃ hi lo : Byte, Memory.read s.buf m.length = some hi ∧
      Memory.read s.buf (m.length + 1) = some lo ∧ v.toNat = hi.toNat * 256 + lo.toNat

theorem exec_start_as_crc (hs : s.Inv) (hst : s.st = .waitCrc ∨ s.st = .waitCrcWithTag) (hc : s.rxCrc = START) :
    ∃ u, exec .start s = .next u ∧ u.st = .waitStart ∧
      (u.delivered = s.delivered ∨ ∃ m, u.delivered = s.delivered ++ [m] ∧ OldMessage s m) := by
  rcases hst with hst | hst
  · by_cases hl : s.len ≤ s.cfg.maxMessageSize
    · obtain ⟨q, qlen, cells, h⟩ := matchingCrcDeliversMessage .start s hs hst hc hl
      exact ⟨_, h, rfl, .inr ⟨_, rfl, qlen, rfl, cells, nofun⟩⟩
    · exact ⟨_, overlongVerifiedFrameDropped .start s hst hc (not_le.1 hl), rfl, .inl rfl⟩
  · obtain ⟨q, hi, lo, v, qlen, cells, hhi, hlo, hv, -, h⟩ := matchingCrcDeliversTaggedMessage .start s hs hst hc
    have two := hs.tagStored hst
    refine ⟨_, h, rfl, .inr ⟨_, rfl, qlen, (Nat.sub_add_cancel two).symm, cells, fun w hw => ?_⟩⟩
    obtain rfl := Option.some.inj hw
    exact ⟨hi, lo, hhi, by rwa [show s.len - 2 + 1 = s.len - 1 by omega], hv⟩

/-- A START taken as the CRC or as an ordinary mismatch begins no frame. -/
theorem exec_start_taken (hs : s.Inv) (hst : s.st = .waitCrc ∨ s.st = .waitCrcWithTag)
    (hc : s.rxCrc = START ∨ s.cfg.crcMismatchStart = false) :
    ∃ u, exec .start s = .next u ∧ u.st = .waitStart ∧
      (u.delivered = s.delivered ∨ ∃ m, u.delivered = s.delivered ++ [m] ∧ OldMessage s m) ∧
      (s.rxCrc ≠ START → u.delivered = s.delivered) := by
  by_cases h : s.rxCrc = START
  · obtain ⟨u, hu, ust, ud⟩ := exec_start_as_crc hs hst h
    exact ⟨u, hu, ust, ud, fun no => absurd h no⟩
  · refine ⟨_, startThatIsNotTheCrc s hst h, ?_, .inl rfl, fun _ => rfl⟩
    rw [hc.resolve_left h]
    rfl

/-- Settles O54: after the START the receiver is in `WaitStart`, where the rest of the frame is lost. -/
theorem startTakenAsCrcLosesFrame : Obligations.StartTakenAsCrcLosesFrame := by
  intro s d p g rest hs hin hst hc
  have cut : frame d p g = [START] ++ (frameCodewords d p g ++ [endByte g] ++ [frameCrc d p g]) := by
    simp [frame_split]
  rw [cut] at hin ⊢
  obtain ⟨u, t, hu, run, ht, run', tin, -⟩ := run_append hin
  obtain ⟨u', hu', ust, ud, mismatch⟩ := exec_start_taken
    (s := { s with input := rxBytes (frameCodewords d p g ++ [endByte g] ++ [frameCrc d p g]) ++ rest })
    (hs.of_receiver_eq rfl rfl rfl rfl rfl) hst hc
  obtain rfl := Host.Outcome.next.inj (hu'.symm.trans (feed_singleton.1 hu))
  have td := feed_lost ht ust (start_not_mem_rest start_not_mem_frameCodewords g)
  exact ⟨u', t, run, ust, ud, mismatch, run', td, tin⟩

/-! ### A damaged codeword -/

/-- An INVALID byte leads from every classified position to `WaitStart`. -/
theorem exec_invalid_classified {w : Byte} (h : exec (.invalid w) s = .next u) (hcl : s.st.classified = true) :
    u.st = .waitStart := by
  have hi : Instr.invalid w = .endFrame ∨ Instr.invalid w = .endTag ∨ ∃ x, Instr.invalid w = .invalid x :=
    .inr (.inr ⟨w, rfl⟩)
  cases hst : s.st with
  | waitStart =>
    rw [waitStartIgnoresAllButStart (.invalid w) s nofun hst] at h
    rw [← Host.Outcome.next.inj h, hst]
  | waitDestinationId | waitByteLow =>
    rw [exec_nonCodeword (by simp [hst]) hi] at h
    rw [State.drop_inv h, State.goTo_st]
  | waitByteHigh =>
    rw [exec_invalid_waitByteHigh hst] at h
    rw [State.drop_inv h, State.goTo_st]
  | waitCrc | waitCrcWithTag => simp [hst, Position.classified] at hcl

/-- A frame up to an INVALID byte among its codewords is lost. -/
theorem feed_damaged {cs : List Byte} {x : Byte} (h : feed (START :: cs ++ [x]) s = .next u)
    (hcl : s.st.classified = true) (hcs : ∀ w ∈ cs, ∃ n, w = encNibble n) (hx : invalidByte x = true) :
    u.st = .waitStart ∧ u.delivered = s.delivered := by
  obtain ⟨v, hv, hlast⟩ := feed_append_inv (feed_start_inv h hcl)
  obtain ⟨vcl, vd⟩ := feed_codewords_quiet hv rfl hcs
  rw [feed_singleton, classify_invalid hx] at hlast
  exact ⟨exec_invalid_classified hlast vcl, (exec_classified_quiet hlast vcl).trans vd⟩

/-- A frame with another byte in the place of one of its codewords. -/
theorem frame_set {j : Nat} (h1 : 1 ≤ j) (hj : j < (frame d p g).length - 2) (x : Byte) :
    (frame d p g).set j x =
      (START :: (frameCodewords d p g).take (j - 1) ++ [x]) ++
        ((frameCodewords d p g).drop j ++ [endByte g] ++ [frameCrc d p g]) := by
  obtain ⟨i, rfl⟩ := Nat.exists_eq_add_one.2 h1
  have hi : i < (frameCodewords d p g).length := by rw [frame_length] at hj; omega
  rw [frame_split, List.cons_append, List.set_cons_succ, List.set_append_left _ _ hi,
    List.set_eq_take_append_cons_drop, if_pos hi]
  simp

/-- Settles O55: the damaged byte is INVALID and ends the frame wherever its codewords have led. -/
theorem corruptedCodewordGivesNoMessage : Obligations.CorruptedCodewordGivesNoMessage := by
  intro s d p g j k w rest hcl h1 hj hk hw hin
  have hinner : j - 1 < (frameCodewords d p g).length := by rw [frame_length] at hj; omega
  have hx : invalidByte (w ^^^ BitVec.twoPow 8 k) = true := by
    obtain ⟨n, rfl⟩ := codeword_of_mem_frameCodewords (mem_frameCodewords_of_inner h1 hj hw)
    exact invalidByte_flip (invalidByte_encNibble n) hk
  have size := List.length_set (as := frame d p g) (i := j) (a := w ^^^ BitVec.twoPow 8 k)
  rw [frame_set h1 hj] at hin size
  obtain ⟨u, t, hu, run, ht, run', tin, -⟩ := run_append hin
  obtain ⟨ust, ud⟩ := feed_damaged hu hcl (fun _ h => codeword_of_mem_frameCodewords (List.mem_of_mem_take h)) hx
  have noStart : START ∉ (frameCodewords d p g).drop j := fun h =>
    start_not_mem_frameCodewords (List.mem_of_mem_drop h)
  have td := feed_lost ht ust (start_not_mem_rest noStart g)
  rw [size] at run'
  refine ⟨⟨u, ?_, ust⟩, t, run', td.trans ud, tin⟩
  rwa [List.length_append, List.length_cons, List.length_take, min_eq_left hinner.le, Nat.sub_add_cancel h1] at run

/-! ### A payload above the limit -/

/-- The codewords of a frame whose payload is above the limit are lost, or all stored if the frame is untagged: a tag
leaves no room. -/
theorem feed_frameCodewords_overlong (h : feed (frameCodewords d p g) s = .next u) (hst : s.st = .waitDestinationId)
    (hl : s.cfg.maxMessageSize < p.length) :
    u.st = .waitStart ∨ (g = none ∧ u.st = .waitByteHigh ∧ u.Stored d p) := by
  by_cases ha : addressed s.cfg d = true
  · by_cases fits : (p ++ tagBytes g).length ≤ s.cfg.bufCap
    · obtain ⟨u', hu', ust, stored⟩ := feed_frameCodewords hst ha fits
      obtain rfl := Host.Outcome.next.inj (hu'.symm.trans h)
      cases g with
      | none => exact .inr ⟨rfl, ust, by rwa [tagBytes, List.append_nil] at stored⟩
      | some v =>
        simp only [List.length_append, tagBytes_length, Option.isSome_some, if_true, Config.bufCap] at fits
        omega
    · obtain ⟨u', hu', ust⟩ := feed_frameCodewords_overflow hst ha (not_le.1 fits)
      obtain rfl := Host.Outcome.next.inj (hu'.symm.trans h)
      exact .inl ust
  · rw [feed_frameCodewords_foreign hst ha] at h
    exact .inl (Host.Outcome.next.inj h ▸ rfl)

/-- The CRC of a stored payload above the limit delivers nothing (41_receiver.md R73). -/
theorem feed_overlong_end (h : feed [endByte none, frameCrc d p none] s = .next t) (hst : s.st = .waitByteHigh)
    (stored : s.Stored d p) (hl : s.cfg.maxMessageSize < p.length) : t.delivered = s.delivered := by
  have ended : exec (classify (endByte none)) s = .next (s.goTo .waitCrc) :=
    exec_endByte (g := none) hst (by rwa [tagBytes, List.append_nil])
  have hc : (classify (frameCrc d p none)).byte = (s.goTo .waitCrc).rxCrc := by
    rw [byte_classify, (stored.goTo _).rxCrc, frameCrc, tagBytes, List.append_nil]
    rfl
  have long : ¬ (s.goTo .waitCrc).len ≤ (s.goTo .waitCrc).cfg.maxMessageSize := by
    rw [State.goTo_len, stored.len]
    exact not_le.2 hl
  rw [feed_cons_of_next ended, feed_singleton, exec_waitCrc_overlong rfl hc long] at h
  rw [State.drop_inv h]
  rfl

/-- Settles O56: the codewords are lost, or the length test drops what they stored. -/
theorem overlongFrameGivesNoMessage : Obligations.OverlongFrameGivesNoMessage := by
  intro s d p g rest hin hcl hl
  rw [frame_split] at hin ⊢
  obtain ⟨u, t, hu, -, ht, run, tin, -⟩ := run_append hin
  have ucfg := (feed_keeps hu).2.2
  have codewords := feed_start_inv hu hcl
  have ud := (feed_codewords_quiet codewords rfl fun _ => codeword_of_mem_frameCodewords).2
  refine ⟨t, run, Eq.trans ?_ ud, tin⟩
  rcases feed_frameCodewords_overlong codewords rfl hl with ust | ⟨rfl, ust, stored⟩
  · exact feed_lost (s := { u with input := rest }) (bs := [endByte g]) ht ust (start_not_mem_endByte g)
  · exact feed_overlong_end (s := { u with input := rest }) ht ust (stored.congr rfl rfl rfl fun _ _ => rfl)
      (by rw [ucfg]; exact hl)

end Sys2Proof.Machine
end

section
/-! Only whole frames are delivered (41_receiver.md R86): the position and the stored bytes tell what the stream ended
in. -/

namespace Sys2Proof.Machine

open Codec

variable {s t u : State} {bs tail : List Byte} {b : Byte}

/-- Two codewords are the encoding of the byte the receiver joins from them. -/
theorem encByte_addLow (m n : Nibble) : encByte (addLow (highHalf m) n) = [encNibble m, encNibble n] := by
  revert m n; decide

/-- From `s` the stream `bs` ends in a START processed as a start, an addressed destination, the codewords of the bytes
stored in `u`, of which there are at most `BUF_CAP`, and `tail`. -/
def EndsInFrame (s : State) (bs : List Byte) (u : State) (tail : List Byte) : Prop :=
  ∃ (pre raw : List Byte) (d : Nibble),
    (∃ v, feed (pre ++ [START]) s = .next v ∧ v.st = .waitDestinationId) ∧
    bs = pre ++ [START, encNibble d] ++ raw.flatMap encByte ++ tail ∧
    addressed s.cfg d = true ∧ raw.length ≤ s.cfg.bufCap ∧ u.Stored d raw

/-- What the stream `bs` from `s` ended in, by the position of the state `u` it led to. -/
def History (s : State) (bs : List Byte) (u : State) : Prop :=
  match u.st with
  | .waitStart => True
  | .waitDestinationId => ∃ pre, bs = pre ++ [START]
  | .waitByteHigh => EndsInFrame s bs u []
  | .waitByteLow => ∃ m, EndsInFrame s bs u [encNibble m] ∧ u.len < s.cfg.bufCap ∧ u.readByte u.len = highHalf m
  | .waitCrc => EndsInFrame s bs u [END]
  | .waitCrcWithTag => EndsInFrame s bs u [END_TAG] ∧ 2 ≤ u.len

/-- A byte that stores nothing lengthens the tail. -/
theorem EndsInFrame.snoc (h : EndsInFrame s bs u tail) (b : Byte)
    (keeps : ∀ d raw, u.Stored d raw → t.Stored d raw) : EndsInFrame s (bs ++ [b]) t (tail ++ [b]) := by
  obtain ⟨pre, raw, d, begun, rfl, ha, hl, stored⟩ := h
  exact ⟨pre, raw, d, begun, by simp, ha, hl, keeps d raw stored⟩

/-- An accepted destination follows the START that led to its position. -/
theorem History.accepted (h : History s bs u) (hu : feed bs s = .next u) (hst : u.st = .waitDestinationId) {n : Nibble}
    (ha : addressed s.cfg n = true) : EndsInFrame s (bs ++ [encNibble n]) ((u.beginFrame n).goTo .waitByteHigh) [] := by
  rw [History, hst] at h
  obtain ⟨pre, rfl⟩ := h
  exact ⟨pre, [], n, ⟨u, hu, hst⟩, by simp, ha, Nat.zero_le _, (State.stored_beginFrame u n).goTo _⟩

/-- A low half completes the byte whose high half is the tail. -/
theorem EndsInFrame.storedLow {m : Nibble} (h : EndsInFrame s bs u [encNibble m]) (hcfg : u.cfg = s.cfg)
    (room : u.len < s.cfg.bufCap) (n : Nibble) :
    EndsInFrame s (bs ++ [encNibble n])
      (((u.writeByte u.len (addLow (highHalf m) n)).countByte (addLow (highHalf m) n)).goTo .waitByteHigh) [] := by
  obtain ⟨pre, raw, d, begun, rfl, ha, -, stored⟩ := h
  refine ⟨pre, raw ++ [addLow (highHalf m) n], d, begun, ?_, ha, ?_, (stored.store (hcfg ▸ room) _).goTo _⟩
  · simp [encByte_addLow]
  · rw [stored.len] at room
    rw [List.length_append]
    exact room

theorem history_snoc (h : History s bs u) (hu : feed bs s = .next u) (ht : exec (classify b) u = .next t) :
    History s (bs ++ [b]) t := by
  have hcfg : u.cfg = s.cfg := (feed_keeps hu).2.2
  have byte {i : Instr} (hi : classify b = i) : b = i.byte := eq_byte_of_classify_eq hi
  cases exec_effect ht with
  | discarded hst => rw [History, hst]; trivial
  | dropped | delivered | deliveredTagged => trivial
  | restarted hi => exact ⟨bs, by rw [byte_classify] at hi; rw [hi]⟩
  | accepted n hst hn ha =>
    obtain rfl := (byte hn).trans (byte_dataInstr n)
    exact h.accepted hu hst (hcfg ▸ ha)
  | ended hst hi =>
    obtain rfl := byte hi
    rw [History, hst] at h
    exact h.snoc END fun _ _ stored => stored.goTo _
  | endedTagged hst hi hl =>
    obtain rfl := byte hi
    rw [History, hst] at h
    exact ⟨h.snoc END_TAG fun _ _ stored => stored.goTo _, hl⟩
  | storedHigh n hst hn room =>
    obtain rfl := (byte hn).trans (byte_dataInstr n)
    rw [History, hst] at h
    refine ⟨n, h.snoc _ fun _ _ stored => (stored.writeHalf _).goTo _, hcfg ▸ room, ?_⟩
    exact State.readByte_of_read room (State.writeByte_read_same room _)
  | storedLow n hst hn =>
    obtain rfl := (byte hn).trans (byte_dataInstr n)
    rw [History, hst] at h
    obtain ⟨m, frame, room, half⟩ := h
    rw [half]
    exact frame.storedLow hcfg room n

/-- By induction on the stream, from its end. -/
theorem history_of_feed (h : feed bs s = .next u) (hst : s.st = .waitStart) : History s bs u := by
  induction bs using List.reverseRecOn generalizing u with
  | nil =>
    obtain rfl := Host.Outcome.next.inj h
    rw [History, hst]
    trivial
  | append_singleton bs b ih =>
    obtain ⟨v, hv, hb⟩ := feed_append_inv h
    exact history_snoc (ih hv) hv (feed_singleton.1 hb)

/-- The message of a frame with the bytes `raw` and the end byte `e`, in a state with the limits of `c`. -/
def FrameMessage (c : Config) (raw : List Byte) (e : Byte) (m : Message) : Prop :=
  (e = END ∧ raw.length ≤ c.maxMessageSize ∧ m = ⟨raw, raw.length, none⟩) ∨
  (e = END_TAG ∧ ∃ (p : List Byte) (hi lo : Byte), raw = p ++ [hi, lo] ∧ m = ⟨p, p.length, some (hi ++ lo)⟩)

theorem exists_last_two {l : List Byte} (h : 2 ≤ l.length) : ∃ p hi lo, l = p ++ [hi, lo] := by
  have two : (l.drop (l.length - 2)).length = 2 := by rw [List.length_drop]; omega
  obtain ⟨hi, lo, hlast⟩ := List.length_eq_two.1 two
  exact ⟨l.take (l.length - 2), hi, lo, by rw [← hlast, List.take_append_drop]⟩

/-- A byte that emits a message is the CRC of the frame in which the stream before it ended. -/
theorem message_of_emitted (h : History s bs u) (hcfg : u.cfg = s.cfg) (ht : exec (classify b) u = .next t)
    (hd : t.delivered ≠ u.delivered) :
    ∃ e m, EndsInFrame s bs u [e] ∧ b = u.rxCrc ∧ t.delivered = u.delivered ++ [m] ∧
      ∀ d raw, u.Stored d raw → FrameMessage s.cfg raw e m := by
  cases exec_effect ht with
  | delivered hst hc hl =>
    rw [History, hst] at h
    refine ⟨END, _, h, by rw [hc, byte_classify], rfl, fun d raw stored => .inl ⟨rfl, ?_, ?_⟩⟩
    · rwa [← stored.len, ← hcfg]
    · rw [stored.len, stored.bytes]
  | deliveredTagged hst hc =>
    rw [History, hst] at h
    obtain ⟨frame, two⟩ := h
    refine ⟨END_TAG, _, frame, by rw [hc, byte_classify], rfl, fun d raw stored => .inr ⟨rfl, ?_⟩⟩
    obtain ⟨p, hi, lo, rfl⟩ := exists_last_two (stored.len ▸ two)
    obtain ⟨hlen, payload, tag⟩ := stored.tagged
    exact ⟨p, hi, lo, rfl, by rw [hlen, payload, tag, joinTag]⟩
  | _ => exact absurd rfl hd

/-- A run over a stream is the same run whatever is to come after the stream. -/
theorem runSteps_of_feed {l : List Input} (h : feed bs { s with input := [] } = .next u)
    (hin : s.input = rxBytes bs ++ l) : runSteps bs.length s = .next { u with input := l } :=
  (runSteps_rxBytes hin).trans (feed_withInput h l)

/-- Settles O57: the history of the stream before the emitting byte, and the start of the frame as a run of its own. -/
theorem onlyFramesAreDelivered : Obligations.OnlyFramesAreDelivered := by
  intro s u t bs b hst hin hu ht hd
  obtain ⟨v, hv⟩ := feed_next bs { s with input := [] }
  obtain ⟨w, hw⟩ := exec_next (classify b) v
  have before := runSteps_of_feed hv (hin.trans List.map_append)
  have after := runSteps_of_feed ((feed_append hv [b]).trans (feed_singleton.2 hw)) (hin.trans (List.append_nil _).symm)
  rw [List.length_append] at after
  obtain rfl := Host.Outcome.next.inj (hu.symm.trans before)
  obtain rfl := Host.Outcome.next.inj (ht.symm.trans after)
  obtain ⟨e, m, frame, hb, hm, message⟩ := message_of_emitted (history_of_feed hv hst) (feed_keeps hv).2.2 hw hd
  obtain ⟨pre, raw, d, ⟨x, hx, xst⟩, hbs, ha, hraw, stored⟩ := frame
  have stream : bs ++ [b] =
      pre ++ [START, encNibble d] ++ raw.flatMap encByte ++ [e, crc8 CRC_INIT (zext8 d :: raw)] := by
    rw [hbs, hb, stored.rxCrc]
    simp
  have start : s.input = rxBytes (pre ++ [START]) ++
      rxBytes (encNibble d :: raw.flatMap encByte ++ [e, crc8 CRC_INIT (zext8 d :: raw)]) := by
    rw [hin, stream]
    simp [rxBytes]
  have begun := runSteps_of_feed hx start
  rw [List.length_append] at begun
  refine ⟨pre, raw, d, e, ⟨_, begun, xst⟩, stream, addressed_iff.1 ha, hraw, ?_⟩
  rcases message d raw stored with ⟨he, hl, rfl⟩ | ⟨he, p, hi, lo, hp, rfl⟩
  · exact .inl ⟨he, hl, hm⟩
  · exact .inr ⟨he, p, hi, lo, hp, hm⟩

end Sys2Proof.Machine
end

section
/-! Stale registers (41_receiver.md R82; 20_memory.md R31; 70_reset_and_hazards.md R114): two receivers that differ in
nothing but what no rule reads before a rule has written it give the same outputs on every later input. -/

namespace Sys2Proof.Machine

/-- The receivers `s` and `t` agree in all that a later event can read; before what `t` has emitted and sent, `s` has
emitted `ms` and sent `x`. -/
structure Alike (ms : List Message) (x : List Byte) (s t : State) : Prop where
  cfg : t.cfg = s.cfg
  st : t.st = s.st
  input : t.input = s.input
  delivered : s.delivered = ms ++ t.delivered
  tx : s.tx = x ++ t.tx
  /-- Where a destination has been accepted: the registers of the frame, and the stored bytes. -/
  frame : s.st.receiving = true → t.dest = s.dest ∧ t.len = s.len ∧
    ∀ j, j < s.len → Memory.read t.buf j = Memory.read s.buf j
  /-- Inside a byte: the pending slot. -/
  half : s.st = .waitByteLow → Memory.read t.buf s.len = Memory.read s.buf s.len
  /-- A tag is among the stored bytes. -/
  tag : s.st = .waitCrcWithTag → 2 ≤ s.len

/-- Both answers are next states, and these are alike. -/
def AnswersAlike (ms : List Message) (x : List Byte) (a a' : Answer) : Prop :=
  ∃ s' t', a = .next s' ∧ a' = .next t' ∧ Alike ms x s' t'

variable {ms : List Message} {x : List Byte} {s t : State}

/-- Outside the receiving positions nothing of the frame's registers is compared. -/
theorem Alike.of_not_receiving (hr : s.st.receiving = false) (cfg : t.cfg = s.cfg) (st : t.st = s.st)
    (input : t.input = s.input) (delivered : s.delivered = ms ++ t.delivered) (tx : s.tx = x ++ t.tx) :
    Alike ms x s t where
  cfg := cfg
  st := st
  input := input
  delivered := delivered
  tx := tx
  frame h := by simp [hr] at h
  half h := by simp [h, Position.receiving] at hr
  tag h := by simp [h, Position.receiving] at hr

/-! ### The shared operations -/

/-- A drop or a restart. -/
theorem Alike.goTo_not_receiving (h : Alike ms x s t) {p : Position} (hp : p.receiving = false) :
    Alike ms x (s.goTo p) (t.goTo p) :=
  .of_not_receiving hp h.cfg rfl h.input h.delivered h.tx

theorem Alike.drop (h : Alike ms x s t) (r : DropReason) : AnswersAlike ms x (s.drop r) (t.drop r) :=
  ⟨_, _, rfl, rfl, h.goTo_not_receiving rfl⟩

theorem Alike.restart (h : Alike ms x s t) : AnswersAlike ms x s.restart t.restart :=
  ⟨_, _, rfl, rfl, h.goTo_not_receiving rfl⟩

/-- An accepted destination writes the registers of the frame. -/
theorem Alike.takeDestination (h : Alike ms x s t) (n : Nibble) :
    AnswersAlike ms x (s.takeDestination n) (t.takeDestination n) := by
  by_cases ha : addressed s.cfg n = true
  · rw [State.takeDestination_accepted ha, State.takeDestination_accepted (h.cfg ▸ ha)]
    exact ⟨_, _, rfl, rfl, h.cfg, rfl, h.input, h.delivered, h.tx,
      fun _ => ⟨rfl, rfl, fun j hj => absurd hj (Nat.not_lt_zero j)⟩, nofun, nofun⟩
  · rw [State.takeDestination_foreign ha, State.takeDestination_foreign (h.cfg ▸ ha)]
    exact h.drop _

/-- The end byte only moves on. -/
theorem Alike.goTo_crc (h : Alike ms x s t) (hst : s.st = .waitByteHigh) {p : Position} (hp : p ≠ .waitByteLow)
    (ht : p = .waitCrcWithTag → 2 ≤ s.len) : Alike ms x (s.goTo p) (t.goTo p) :=
  ⟨h.cfg, rfl, h.input, h.delivered, h.tx, fun _ => h.frame (by rw [hst]; rfl), fun hl => absurd hl hp, ht⟩

theorem Alike.endTagged (h : Alike ms x s t) (hst : s.st = .waitByteHigh) :
    AnswersAlike ms x s.endTagged t.endTagged := by
  obtain ⟨-, hlen, -⟩ := h.frame (by rw [hst]; rfl)
  by_cases two : 2 ≤ s.len
  · rw [State.endTagged_next two, State.endTagged_next (hlen ▸ two)]
    exact ⟨_, _, rfl, rfl, h.goTo_crc hst nofun fun _ => two⟩
  · rw [State.endTagged_malformed two, State.endTagged_malformed (hlen ▸ two)]
    exact h.drop _

/-- The same write to cells that read alike. -/
theorem State.writeByte_read_congr (hcfg : t.cfg = s.cfg) {i j : Nat} {v : Byte}
    (h : Memory.read t.buf j = Memory.read s.buf j) :
    Memory.read (t.writeByte i v).buf j = Memory.read (s.writeByte i v).buf j := by
  rw [State.writeByte_buf, State.writeByte_buf, hcfg]
  split
  · rw [Memory.read_write, Memory.read_write, h]
  · exact h

/-- A high half is written to the pending slot, whatever was there. -/
theorem Alike.storeHigh (h : Alike ms x s t) (hst : s.st = .waitByteHigh) (n : Nibble) :
    AnswersAlike ms x (s.storeHigh n) (t.storeHigh n) := by
  obtain ⟨hdest, hlen, cells⟩ := h.frame (by rw [hst]; rfl)
  by_cases room : s.len < s.cfg.bufCap
  · have room' : s.len < t.cfg.bufCap := h.cfg ▸ room
    rw [State.storeHigh_next n room, State.storeHigh_next n (hlen ▸ room'), hlen]
    refine ⟨_, _, rfl, rfl, h.cfg, rfl, h.input, h.delivered, h.tx, fun _ => ⟨hdest, hlen, fun j hj => ?_⟩, fun _ => ?_,
      nofun⟩
    · exact State.writeByte_read_congr h.cfg (cells j hj)
    · exact (State.writeByte_read_same room' _).trans (State.writeByte_read_same room _).symm
  · rw [State.storeHigh_full n room, State.storeHigh_full n (by rwa [hlen, h.cfg])]
    exact h.drop .overflow

/-- A low half completes the pending slot. -/
theorem Alike.storeLow (h : Alike ms x s t) (hst : s.st = .waitByteLow) (n : Nibble) :
    AnswersAlike ms x (s.storeLow n) (t.storeLow n) := by
  obtain ⟨hdest, hlen, cells⟩ := h.frame (by rw [hst]; rfl)
  rw [State.storeLow_eq, State.storeLow_eq, hlen, State.readByte_congr h.cfg (h.half hst)]
  refine ⟨_, _, rfl, rfl, h.cfg, rfl, h.input, h.delivered, h.tx,
    fun _ => ⟨hdest, congrArg (· + 1) hlen, fun j hj => State.writeByte_read_congr h.cfg ?_⟩, nofun, nofun⟩
  rcases Nat.lt_succ_iff_lt_or_eq.1 hj with hj | rfl
  · exact cells j hj
  · exact h.half hst

theorem Alike.crcMismatch (h : Alike ms x s t) (b : Byte) : AnswersAlike ms x (s.crcMismatch b) (t.crcMismatch b) := by
  rw [State.crcMismatch_eq, State.crcMismatch_eq, h.cfg]
  exact ⟨_, _, rfl, rfl, h.goTo_not_receiving (by split <;> rfl)⟩

theorem Alike.rxCrc (h : Alike ms x s t) (hr : s.st.receiving = true) : t.rxCrc = s.rxCrc := by
  obtain ⟨hdest, hlen, cells⟩ := h.frame hr
  exact State.rxCrc_congr h.cfg hdest hlen cells

/-- The same message. -/
theorem Alike.emit (h : Alike ms x s t) (m : Message) {k k' : Nat} :
    Alike ms x (((s.setLen k).emit m).goTo .waitStart) (((t.setLen k').emit m).goTo .waitStart) :=
  .of_not_receiving rfl h.cfg rfl h.input (by simp [h.delivered]) h.tx

theorem Alike.takeCrc (h : Alike ms x s t) (hst : s.st = .waitCrc) (b : Byte) :
    AnswersAlike ms x (s.takeCrc b) (t.takeCrc b) := by
  have hr : s.st.receiving = true := by rw [hst]; rfl
  obtain ⟨-, hlen, cells⟩ := h.frame hr
  have hl : t.lengthOk = s.lengthOk := by rw [State.lengthOk, State.lengthOk, hlen, h.cfg]
  rw [State.takeCrc, State.takeCrc, h.rxCrc hr, hl]
  split
  · split
    · rw [State.deliver_eq, State.deliver_eq, hlen, State.readSpan_congr h.cfg cells]
      exact ⟨_, _, rfl, rfl, h.emit (k := s.len) (k' := t.len) _⟩
    · exact h.drop _
  · exact h.crcMismatch b

theorem Alike.takeCrcTagged (h : Alike ms x s t) (hst : s.st = .waitCrcWithTag) (b : Byte) :
    AnswersAlike ms x (s.takeCrcTagged b) (t.takeCrcTagged b) := by
  have hr : s.st.receiving = true := by rw [hst]; rfl
  have two := h.tag hst
  obtain ⟨-, hlen, cells⟩ := h.frame hr
  rw [State.takeCrcTagged, State.takeCrcTagged, h.rxCrc hr]
  split
  · rw [State.deliverTagged_eq, State.deliverTagged_eq, hlen,
      State.readSpan_congr h.cfg fun j hj => cells j (by omega),
      State.readTag_congr h.cfg (cells _ (by omega)) (cells _ (by omega))]
    exact ⟨_, _, rfl, rfl, h.emit _⟩
  · exact h.crcMismatch b

/-! ### The instructions, position by position -/

theorem Alike.exec_start (h : Alike ms x s t) (hcl : s.st.classified = true) :
    AnswersAlike ms x (exec .start s) (exec .start t) := by
  rw [exec_start_of_classified hcl, exec_start_of_classified (h.st ▸ hcl)]
  exact h.restart

theorem Alike.exec_waitStart (h : Alike ms x s t) (hst : s.st = .waitStart) (i : Instr) :
    AnswersAlike ms x (exec i s) (exec i t) := by
  rw [Machine.exec_waitStart hst, Machine.exec_waitStart (h.st.trans hst)]
  split
  · exact h.restart
  · exact ⟨s, t, rfl, rfl, h⟩

/-- Where a codeword is required, the other classes but START drop the frame. -/
theorem Alike.exec_codeword (h : Alike ms x s t) (hst : s.st = .waitDestinationId ∨ s.st = .waitByteLow) (i : Instr)
    (data : ∀ n, AnswersAlike ms x (exec (dataInstr n) s) (exec (dataInstr n) t)) :
    AnswersAlike ms x (exec i s) (exec i t) := by
  have drop {i : Instr} (hi : i = .endFrame ∨ i = .endTag ∨ ∃ w, i = .invalid w) :
      AnswersAlike ms x (exec i s) (exec i t) := by
    rw [exec_nonCodeword hst hi, exec_nonCodeword (h.st ▸ hst) hi]
    exact h.drop _
  rcases i.class_cases with rfl | hi | hi | ⟨n, rfl⟩ | hi
  · exact h.exec_start (by rcases hst with hst | hst <;> rw [hst] <;> rfl)
  · exact drop (.inl hi)
  · exact drop (.inr (.inl hi))
  · exact data n
  · exact drop (.inr (.inr hi))

theorem Alike.exec_waitByteHigh (h : Alike ms x s t) (hst : s.st = .waitByteHigh) (i : Instr) :
    AnswersAlike ms x (exec i s) (exec i t) := by
  have hst' := h.st.trans hst
  rcases i.class_cases with rfl | rfl | rfl | ⟨n, rfl⟩ | ⟨w, rfl⟩
  · exact h.exec_start (by rw [hst]; rfl)
  · rw [exec_end_waitByteHigh hst, exec_end_waitByteHigh hst']
    exact ⟨_, _, rfl, rfl, h.goTo_crc hst nofun nofun⟩
  · rw [exec_endTag_waitByteHigh hst, exec_endTag_waitByteHigh hst']
    exact h.endTagged hst
  · rw [exec_data_waitByteHigh hst, exec_data_waitByteHigh hst']
    exact h.storeHigh hst n
  · rw [exec_invalid_waitByteHigh hst, exec_invalid_waitByteHigh hst']
    exact h.drop _

theorem Alike.exec (h : Alike ms x s t) (i : Instr) : AnswersAlike ms x (exec i s) (exec i t) := by
  cases hst : s.st with
  | waitStart => exact h.exec_waitStart hst i
  | waitDestinationId =>
    refine h.exec_codeword (.inl hst) i fun n => ?_
    rw [exec_data_waitDestinationId hst, exec_data_waitDestinationId (h.st.trans hst)]
    exact h.takeDestination n
  | waitByteHigh => exact h.exec_waitByteHigh hst i
  | waitByteLow =>
    refine h.exec_codeword (.inr hst) i fun n => ?_
    rw [exec_data_waitByteLow hst, exec_data_waitByteLow (h.st.trans hst)]
    exact h.storeLow hst n
  | waitCrc =>
    rw [exec_waitCrc hst, exec_waitCrc (h.st.trans hst)]
    exact h.takeCrc hst _
  | waitCrcWithTag =>
    rw [exec_waitCrcWithTag hst, exec_waitCrcWithTag (h.st.trans hst)]
    exact h.takeCrcTagged hst _

/-! ### Steps and runs -/

theorem Alike.step (h : Alike ms x s t) : AnswersAlike ms x (step s) (step t) := by
  cases hin : s.input with
  | nil => exact ⟨s, t, step_nil hin, step_nil (h.input.trans hin), h⟩
  | cons e rest =>
    cases e with
    | rxByte b =>
      rw [step_rxByte hin, step_rxByte (h.input.trans hin)]
      have taken : Alike ms x { s with input := rest } { t with input := rest } :=
        ⟨h.cfg, h.st, rfl, h.delivered, h.tx, h.frame, h.half, h.tag⟩
      exact taken.exec _
    | send r =>
      obtain ⟨y, hy⟩ := State.send_appends r
      rw [step_send hin, step_send (h.input.trans hin), hy, hy]
      exact ⟨_, _, rfl, rfl, h.cfg, h.st, rfl, h.delivered, by simp [h.tx], h.frame, h.half, h.tag⟩

theorem Alike.runSteps (h : Alike ms x s t) (k : Nat) : AnswersAlike ms x (runSteps k s) (runSteps k t) := by
  induction k generalizing s t with
  | zero => exact ⟨s, t, rfl, rfl, h⟩
  | succ k ih =>
    obtain ⟨s', t', hs, ht, h'⟩ := h.step
    rw [runSteps_succ_of_next hs, runSteps_succ_of_next ht]
    exact ih h'

/-- Settles O59: outside the receiving positions nothing of the frame's registers is compared. -/
theorem staleReceiverStateIsNeverObserved : Obligations.StaleReceiverStateIsNeverObserved := by
  intro s t k hst hst' hcfg hin hd htx
  have alike : Alike [] [] s t :=
    .of_not_receiving (by rcases hst with h | h <;> rw [h] <;> rfl) hcfg hst' hin hd.symm htx.symm
  obtain ⟨s', t', hs, ht, h⟩ := alike.runSteps k
  exact ⟨s', t', hs, ht, h.st, h.delivered.symm, h.tx.symm, h.input⟩

/-- A START in a classified position, as a step. -/
theorem step_start {bs : List Byte} (hcl : s.st.classified = true) :
    step { s with input := rxBytes (START :: bs) } = .next { s with st := .waitDestinationId, input := rxBytes bs } :=
  (step_rxByte rfl).trans (exec_start_begins (s := { s with input := rxBytes bs }) (.inl hcl))

/-- Settles O60: the START leads both receivers to `WaitDestinationId`, and there they differ in stale registers and in
what was put out before. -/
theorem startResynchronises : Obligations.StartResynchronises := by
  intro s bs hcl
  have alike : Alike s.delivered s.tx { s with st := .waitDestinationId, input := rxBytes bs }
      { State.resetWith s.cfg with st := .waitDestinationId, input := rxBytes bs } :=
    .of_not_receiving rfl rfl rfl rfl (List.append_nil _).symm (List.append_nil _).symm
  obtain ⟨s', t', hs, ht, h⟩ := alike.runSteps bs.length
  refine ⟨s', t', ?_, ?_, h.st.symm, h.delivered⟩
  · rw [runSteps_succ_of_next (step_start hcl), hs]
  · rw [runSteps_succ_of_next (step_start rfl), ht]

end Sys2Proof.Machine
end
